-- ==== Sys2Proof/Word.lean ====
section
/-! DEFINITION. The word and byte types and the integer readings of a word (spec rules R6, R8). -/

namespace Sys2Proof

/-- A 32-bit pattern: a general register, `pc`, an address, an instruction word (R6, `XLEN` = `ILEN` = 32). -/
abbrev Word := BitVec 32

/-- One byte of memory (R19, R31). -/
abbrev Byte := BitVec 8

/-- A general register's number, 0 to 31 (R10). -/
abbrev RegIdx := Fin 32

/-- `s32(v)` of R8: the pattern read as two's complement. -/
abbrev s32 (v : Word) : Int := v.toInt

/-- `u32(v)` of R8: the pattern read as unsigned. -/
abbrev u32 (v : Word) : Nat := v.toNat

/-- `to32(n)` of R8: an integer reduced modulo 2^32 to a 32-bit pattern. -/
abbrev to32 (n : Int) : Word := BitVec.ofInt 32 n

end Sys2Proof
end

