-- ==== Sys2Proof/Syntax.lean ====
section
/-! DEFINITION. The instructions: one constructor per row of spec/opcode_table.json, in the table's order (spec rule R1),
with the operands the row's format gives them (R61, R62). -/

namespace Sys2Proof

/-- An instruction. `rd`, `rs1`, `rs2` are register numbers (R62); a 12-bit immediate or offset is the pattern that
`sext_12` extends (R64, R65); `imm20` is `inst[31:12]` (R67); `shamt` is `inst[24:20]` (R69); a branch's offset is the
13-bit pattern of R66 and a JAL's the 21-bit pattern of R68, whose bit 0 is 0 (`Instr.wellFormed`). -/
inductive Instr where
  /-- R100 -/
  | lui (rd : RegIdx) (imm20 : BitVec 20)
  /-- R101 -/
  | auipc (rd : RegIdx) (imm20 : BitVec 20)
  /-- R110 -/
  | add (rd rs1 rs2 : RegIdx)
  /-- R111 -/
  | addi (rd rs1 : RegIdx) (imm : BitVec 12)
  /-- R112 -/
  | sub (rd rs1 rs2 : RegIdx)
  /-- R113 -/
  | mul (rd rs1 rs2 : RegIdx)
  /-- R114 -/
  | mulh (rd rs1 rs2 : RegIdx)
  /-- R115 -/
  | mulhsu (rd rs1 rs2 : RegIdx)
  /-- R116 -/
  | mulhu (rd rs1 rs2 : RegIdx)
  /-- R117 -/
  | div (rd rs1 rs2 : RegIdx)
  /-- R118 -/
  | divu (rd rs1 rs2 : RegIdx)
  /-- R119 -/
  | rem (rd rs1 rs2 : RegIdx)
  /-- R120 -/
  | remu (rd rs1 rs2 : RegIdx)
  /-- R130 -/
  | xor (rd rs1 rs2 : RegIdx)
  /-- R131 -/
  | xori (rd rs1 : RegIdx) (imm : BitVec 12)
  /-- R132 -/
  | or (rd rs1 rs2 : RegIdx)
  /-- R133 -/
  | ori (rd rs1 : RegIdx) (imm : BitVec 12)
  /-- R134 -/
  | and (rd rs1 rs2 : RegIdx)
  /-- R135 -/
  | andi (rd rs1 : RegIdx) (imm : BitVec 12)
  /-- R140 -/
  | sll (rd rs1 rs2 : RegIdx)
  /-- R141 -/
  | slli (rd rs1 : RegIdx) (shamt : BitVec 5)
  /-- R142 -/
  | srl (rd rs1 rs2 : RegIdx)
  /-- R143 -/
  | srli (rd rs1 : RegIdx) (shamt : BitVec 5)
  /-- R144 -/
  | sra (rd rs1 rs2 : RegIdx)
  /-- R145 -/
  | srai (rd rs1 : RegIdx) (shamt : BitVec 5)
  /-- R150 -/
  | slt (rd rs1 rs2 : RegIdx)
  /-- R151 -/
  | slti (rd rs1 : RegIdx) (imm : BitVec 12)
  /-- R152 -/
  | sltiu (rd rs1 : RegIdx) (imm : BitVec 12)
  /-- R153 -/
  | sltu (rd rs1 rs2 : RegIdx)
  /-- R160 -/
  | jal (rd : RegIdx) (offset : BitVec 21)
  /-- R161 -/
  | jalr (rd rs1 : RegIdx) (offset : BitVec 12)
  /-- R170 -/
  | beq (rs1 rs2 : RegIdx) (offset : BitVec 13)
  /-- R171 -/
  | bne (rs1 rs2 : RegIdx) (offset : BitVec 13)
  /-- R172 -/
  | blt (rs1 rs2 : RegIdx) (offset : BitVec 13)
  /-- R173 -/
  | bge (rs1 rs2 : RegIdx) (offset : BitVec 13)
  /-- R174 -/
  | bltu (rs1 rs2 : RegIdx) (offset : BitVec 13)
  /-- R175 -/
  | bgeu (rs1 rs2 : RegIdx) (offset : BitVec 13)
  /-- R180 -/
  | lb (rd rs1 : RegIdx) (offset : BitVec 12)
  /-- R181 -/
  | lh (rd rs1 : RegIdx) (offset : BitVec 12)
  /-- R182 -/
  | lbu (rd rs1 : RegIdx) (offset : BitVec 12)
  /-- R183 -/
  | lhu (rd rs1 : RegIdx) (offset : BitVec 12)
  /-- R184 -/
  | lw (rd rs1 : RegIdx) (offset : BitVec 12)
  /-- R190: the data register first, as the assembler writes it (R193) -/
  | sb (rs2 rs1 : RegIdx) (offset : BitVec 12)
  /-- R191 -/
  | sh (rs2 rs1 : RegIdx) (offset : BitVec 12)
  /-- R192 -/
  | sw (rs2 rs1 : RegIdx) (offset : BitVec 12)
  deriving DecidableEq, Repr

end Sys2Proof
end

