-- ==== Sys2Proof/Decode.lean ====
section
/-! DEFINITION. The decoder, total on any word and on any bytes and rejecting by name, the opcode table as masks and
matches, and the encoder (spec 30_encoding.md, rules R60 to R77; spec/opcode_table.json). -/

namespace Sys2Proof

/-- Why bytes decode to no instruction. -/
inductive DecodeError where
  /-- fewer than the four bytes every instruction has (R60) -/
  | truncated
  /-- the word matches no row of the opcode table (R75, R76) -/
  | illegalInstruction (word : Word)
  deriving DecidableEq, Repr

/-! ### Fields (R62) and immediates (R64 to R69) -/

/-- `inst[6:0]` (R62). -/
def opcodeField (w : Word) : BitVec 7 := w.extractLsb' 0 7
/-- `inst[11:7]` (R62). -/
def rdField (w : Word) : RegIdx := (w.extractLsb' 7 5).toFin
/-- `inst[14:12]` (R62). -/
def funct3Field (w : Word) : BitVec 3 := w.extractLsb' 12 3
/-- `inst[19:15]` (R62). -/
def rs1Field (w : Word) : RegIdx := (w.extractLsb' 15 5).toFin
/-- `inst[24:20]` (R62). -/
def rs2Field (w : Word) : RegIdx := (w.extractLsb' 20 5).toFin
/-- `inst[31:25]` (R62). -/
def funct7Field (w : Word) : BitVec 7 := w.extractLsb' 25 7
/-- `shamt` = `inst[24:20]` (R69). -/
def shamtField (w : Word) : BitVec 5 := w.extractLsb' 20 5
/-- `inst[31:20]`, the 12 bits `sext_12` extends (R64). -/
def immI (w : Word) : BitVec 12 := w.extractLsb' 20 12
/-- `{inst[31:25], inst[11:7]}` (R65). -/
def immS (w : Word) : BitVec 12 := w.extractLsb' 25 7 ++ w.extractLsb' 7 5
/-- `{inst[31], inst[7], inst[30:25], inst[11:8], 0}` (R66). -/
def immB (w : Word) : BitVec 13 :=
  w.extractLsb' 31 1 ++ w.extractLsb' 7 1 ++ w.extractLsb' 25 6 ++ w.extractLsb' 8 4 ++ 0#1
/-- `inst[31:12]` (R67). -/
def immU (w : Word) : BitVec 20 := w.extractLsb' 12 20
/-- `{inst[31], inst[19:12], inst[20], inst[30:21], 0}` (R68). -/
def immJ (w : Word) : BitVec 21 :=
  w.extractLsb' 31 1 ++ w.extractLsb' 12 8 ++ w.extractLsb' 20 1 ++ w.extractLsb' 21 10 ++ 0#1

/-! ### The decoder (R71 to R76) -/

/-- Opcode OP (R72): by `funct7`, then `funct3`. -/
def decodeOp (w : Word) : Option Instr :=
  let rd := rdField w
  let rs1 := rs1Field w
  let rs2 := rs2Field w
  match funct7Field w, funct3Field w with
  | 0b0000000#7, 0b000#3 => some (.add rd rs1 rs2)
  | 0b0000000#7, 0b001#3 => some (.sll rd rs1 rs2)
  | 0b0000000#7, 0b010#3 => some (.slt rd rs1 rs2)
  | 0b0000000#7, 0b011#3 => some (.sltu rd rs1 rs2)
  | 0b0000000#7, 0b100#3 => some (.xor rd rs1 rs2)
  | 0b0000000#7, 0b101#3 => some (.srl rd rs1 rs2)
  | 0b0000000#7, 0b110#3 => some (.or rd rs1 rs2)
  | 0b0000000#7, 0b111#3 => some (.and rd rs1 rs2)
  | 0b0100000#7, 0b000#3 => some (.sub rd rs1 rs2)
  | 0b0100000#7, 0b101#3 => some (.sra rd rs1 rs2)
  | 0b0000001#7, 0b000#3 => some (.mul rd rs1 rs2)
  | 0b0000001#7, 0b001#3 => some (.mulh rd rs1 rs2)
  | 0b0000001#7, 0b010#3 => some (.mulhsu rd rs1 rs2)
  | 0b0000001#7, 0b011#3 => some (.mulhu rd rs1 rs2)
  | 0b0000001#7, 0b100#3 => some (.div rd rs1 rs2)
  | 0b0000001#7, 0b101#3 => some (.divu rd rs1 rs2)
  | 0b0000001#7, 0b110#3 => some (.rem rd rs1 rs2)
  | 0b0000001#7, 0b111#3 => some (.remu rd rs1 rs2)
  | _, _ => none

/-- Opcode OP-IMM (R73): by `funct3`; the shift forms also by `inst[31:25]` (R69). -/
def decodeOpImm (w : Word) : Option Instr :=
  let rd := rdField w
  let rs1 := rs1Field w
  match funct3Field w with
  | 0b000#3 => some (.addi rd rs1 (immI w))
  | 0b001#3 =>
    match funct7Field w with
    | 0b0000000#7 => some (.slli rd rs1 (shamtField w))
    | _ => none
  | 0b010#3 => some (.slti rd rs1 (immI w))
  | 0b011#3 => some (.sltiu rd rs1 (immI w))
  | 0b100#3 => some (.xori rd rs1 (immI w))
  | 0b101#3 =>
    match funct7Field w with
    | 0b0000000#7 => some (.srli rd rs1 (shamtField w))
    | 0b0100000#7 => some (.srai rd rs1 (shamtField w))
    | _ => none
  | 0b110#3 => some (.ori rd rs1 (immI w))
  | 0b111#3 => some (.andi rd rs1 (immI w))
  | _ => none

/-- Opcode LOAD (R74). -/
def decodeLoad (w : Word) : Option Instr :=
  let rd := rdField w
  let rs1 := rs1Field w
  match funct3Field w with
  | 0b000#3 => some (.lb rd rs1 (immI w))
  | 0b001#3 => some (.lh rd rs1 (immI w))
  | 0b010#3 => some (.lw rd rs1 (immI w))
  | 0b100#3 => some (.lbu rd rs1 (immI w))
  | 0b101#3 => some (.lhu rd rs1 (immI w))
  | _ => none

/-- Opcode STORE (R74). -/
def decodeStore (w : Word) : Option Instr :=
  let rs1 := rs1Field w
  let rs2 := rs2Field w
  match funct3Field w with
  | 0b000#3 => some (.sb rs2 rs1 (immS w))
  | 0b001#3 => some (.sh rs2 rs1 (immS w))
  | 0b010#3 => some (.sw rs2 rs1 (immS w))
  | _ => none

/-- Opcode BRANCH (R74). -/
def decodeBranch (w : Word) : Option Instr :=
  let rs1 := rs1Field w
  let rs2 := rs2Field w
  match funct3Field w with
  | 0b000#3 => some (.beq rs1 rs2 (immB w))
  | 0b001#3 => some (.bne rs1 rs2 (immB w))
  | 0b100#3 => some (.blt rs1 rs2 (immB w))
  | 0b101#3 => some (.bge rs1 rs2 (immB w))
  | 0b110#3 => some (.bltu rs1 rs2 (immB w))
  | 0b111#3 => some (.bgeu rs1 rs2 (immB w))
  | _ => none

/-- JALR's opcode (R74). -/
def decodeJalr (w : Word) : Option Instr :=
  match funct3Field w with
  | 0b000#3 => some (.jalr (rdField w) (rs1Field w) (immI w))
  | _ => none

/-- The instruction a word selects, if any (R71, R63): by the opcode, then by `funct3` and `funct7`. -/
def decode? (w : Word) : Option Instr :=
  match opcodeField w with
  | 0b0000011#7 => decodeLoad w
  | 0b0010011#7 => decodeOpImm w
  | 0b0010111#7 => some (.auipc (rdField w) (immU w))
  | 0b0100011#7 => decodeStore w
  | 0b0110011#7 => decodeOp w
  | 0b0110111#7 => some (.lui (rdField w) (immU w))
  | 0b1100011#7 => decodeBranch w
  | 0b1100111#7 => decodeJalr w
  | 0b1101111#7 => some (.jal (rdField w) (immJ w))
  | _ => none

/-- The decoder: "a function of the 32-bit word alone" (R71), refusing by name (R75, R76). -/
def decode (w : Word) : Except DecodeError Instr :=
  match decode? w with
  | some i => .ok i
  | none => .error (.illegalInstruction w)

/-! ### Words as bytes (R34, R43: little-endian) -/

/-- The word whose bytes are `b0` (lowest address) to `b3` (R34, R43). -/
def wordOfBytes (b0 b1 b2 b3 : Byte) : Word := b3 ++ b2 ++ b1 ++ b0

/-- The four bytes of a word, the one of the lowest address first (R43). -/
def bytesOfWord (w : Word) : List Byte :=
  [w.extractLsb' 0 8, w.extractLsb' 8 8, w.extractLsb' 16 8, w.extractLsb' 24 8]

/-- Decodes the instruction at the front of any bytes and gives the bytes after it. -/
def decodeBytes : List Byte → Except DecodeError (Instr × List Byte)
  | b0 :: b1 :: b2 :: b3 :: rest =>
    match decode (wordOfBytes b0 b1 b2 b3) with
    | .ok i => .ok (i, rest)
    | .error e => .error e
  | _ => .error .truncated

/-- The instruction the decoder reads from an instruction whose bits are `w`, numbered as spec/opcode_table.json numbers
them (bit 0 the least significant bit of the word); bits from `nbits` up are 0. -/
def decodeTableWord (nbits w : Nat) : Option Instr :=
  match decodeBytes (bytesOfWord (BitVec.ofNat 32 (w % 2 ^ nbits))) with
  | .ok (i, _) => some i
  | .error _ => none

/-! ### The opcode table (spec/opcode_table.json) -/

/-- One row of the opcode table: a word is the row's instruction when `inst & mask == match` (R234). -/
structure OpcodeRow where
  mnemonic : String
  mask : Word
  pattern : Word
  deriving DecidableEq, Repr

/-- Whether a word matches a row (R234). -/
def OpcodeRow.matchesWord (r : OpcodeRow) (w : Word) : Bool := w &&& r.mask == r.pattern

/-- The 45 rows of spec/opcode_table.json, in its order. -/
def opcodeTable : List OpcodeRow :=
  [⟨"LUI", 0x0000007f#32, 0x00000037#32⟩, ⟨"AUIPC", 0x0000007f#32, 0x00000017#32⟩,
   ⟨"ADD", 0xfe00707f#32, 0x00000033#32⟩, ⟨"ADDI", 0x0000707f#32, 0x00000013#32⟩,
   ⟨"SUB", 0xfe00707f#32, 0x40000033#32⟩, ⟨"MUL", 0xfe00707f#32, 0x02000033#32⟩,
   ⟨"MULH", 0xfe00707f#32, 0x02001033#32⟩, ⟨"MULHSU", 0xfe00707f#32, 0x02002033#32⟩,
   ⟨"MULHU", 0xfe00707f#32, 0x02003033#32⟩, ⟨"DIV", 0xfe00707f#32, 0x02004033#32⟩,
   ⟨"DIVU", 0xfe00707f#32, 0x02005033#32⟩, ⟨"REM", 0xfe00707f#32, 0x02006033#32⟩,
   ⟨"REMU", 0xfe00707f#32, 0x02007033#32⟩] ++
  [⟨"XOR", 0xfe00707f#32, 0x00004033#32⟩, ⟨"XORI", 0x0000707f#32, 0x00004013#32⟩,
   ⟨"OR", 0xfe00707f#32, 0x00006033#32⟩, ⟨"ORI", 0x0000707f#32, 0x00006013#32⟩,
   ⟨"AND", 0xfe00707f#32, 0x00007033#32⟩, ⟨"ANDI", 0x0000707f#32, 0x00007013#32⟩,
   ⟨"SLL", 0xfe00707f#32, 0x00001033#32⟩, ⟨"SLLI", 0xfe00707f#32, 0x00001013#32⟩,
   ⟨"SRL", 0xfe00707f#32, 0x00005033#32⟩, ⟨"SRLI", 0xfe00707f#32, 0x00005013#32⟩,
   ⟨"SRA", 0xfe00707f#32, 0x40005033#32⟩, ⟨"SRAI", 0xfe00707f#32, 0x40005013#32⟩,
   ⟨"SLT", 0xfe00707f#32, 0x00002033#32⟩, ⟨"SLTI", 0x0000707f#32, 0x00002013#32⟩,
   ⟨"SLTIU", 0x0000707f#32, 0x00003013#32⟩, ⟨"SLTU", 0xfe00707f#32, 0x00003033#32⟩] ++
  [⟨"JAL", 0x0000007f#32, 0x0000006f#32⟩, ⟨"JALR", 0x0000707f#32, 0x00000067#32⟩,
   ⟨"BEQ", 0x0000707f#32, 0x00000063#32⟩, ⟨"BNE", 0x0000707f#32, 0x00001063#32⟩,
   ⟨"BLT", 0x0000707f#32, 0x00004063#32⟩, ⟨"BGE", 0x0000707f#32, 0x00005063#32⟩,
   ⟨"BLTU", 0x0000707f#32, 0x00006063#32⟩, ⟨"BGEU", 0x0000707f#32, 0x00007063#32⟩,
   ⟨"LB", 0x0000707f#32, 0x00000003#32⟩, ⟨"LH", 0x0000707f#32, 0x00001003#32⟩,
   ⟨"LBU", 0x0000707f#32, 0x00004003#32⟩, ⟨"LHU", 0x0000707f#32, 0x00005003#32⟩,
   ⟨"LW", 0x0000707f#32, 0x00002003#32⟩, ⟨"SB", 0x0000707f#32, 0x00000023#32⟩,
   ⟨"SH", 0x0000707f#32, 0x00001023#32⟩, ⟨"SW", 0x0000707f#32, 0x00002023#32⟩]

/-! ### The encoder (R61 to R69, R72 to R74) -/

/-- A register number as its 5-bit field (R62). -/
def regBits (r : RegIdx) : BitVec 5 := BitVec.ofFin r

/-- Format R (R61), and the shift form of format I with `shamt` in the place of `rs2` (R69). -/
def encR (funct7 : BitVec 7) (rs2 : BitVec 5) (rs1 : RegIdx) (funct3 : BitVec 3) (rd : RegIdx) (opcode : BitVec 7) :
    Word := funct7 ++ rs2 ++ regBits rs1 ++ funct3 ++ regBits rd ++ opcode

/-- Format I (R61, R64). -/
def encI (imm : BitVec 12) (rs1 : RegIdx) (funct3 : BitVec 3) (rd : RegIdx) (opcode : BitVec 7) : Word :=
  imm ++ regBits rs1 ++ funct3 ++ regBits rd ++ opcode

/-- Format S (R61, R65): `imm[11:5]` in bits 31-25 and `imm[4:0]` in bits 11-7. -/
def encS (imm : BitVec 12) (rs2 rs1 : RegIdx) (funct3 : BitVec 3) (opcode : BitVec 7) : Word :=
  imm.extractLsb' 5 7 ++ regBits rs2 ++ regBits rs1 ++ funct3 ++ imm.extractLsb' 0 5 ++ opcode

/-- Format B (R61, R66): `imm[12]`, `imm[10:5]`, then `imm[4:1]`, `imm[11]`. -/
def encB (imm : BitVec 13) (rs2 rs1 : RegIdx) (funct3 : BitVec 3) (opcode : BitVec 7) : Word :=
  imm.extractLsb' 12 1 ++ imm.extractLsb' 5 6 ++ regBits rs2 ++ regBits rs1 ++ funct3 ++
    imm.extractLsb' 1 4 ++ imm.extractLsb' 11 1 ++ opcode

/-- Format U (R61, R67). -/
def encU (imm20 : BitVec 20) (rd : RegIdx) (opcode : BitVec 7) : Word := imm20 ++ regBits rd ++ opcode

/-- Format J (R61, R68): `imm[20]`, `imm[10:1]`, `imm[11]`, `imm[19:12]`. -/
def encJ (imm : BitVec 21) (rd : RegIdx) (opcode : BitVec 7) : Word :=
  imm.extractLsb' 20 1 ++ imm.extractLsb' 1 10 ++ imm.extractLsb' 11 1 ++ imm.extractLsb' 12 8 ++ regBits rd ++ opcode

/-- The word of an instruction (R61 to R69, R72 to R74). -/
def encode : Instr → Word
  | .lui rd imm => encU imm rd 0b0110111#7
  | .auipc rd imm => encU imm rd 0b0010111#7
  | .add rd rs1 rs2 => encR 0b0000000#7 (regBits rs2) rs1 0b000#3 rd 0b0110011#7
  | .addi rd rs1 imm => encI imm rs1 0b000#3 rd 0b0010011#7
  | .sub rd rs1 rs2 => encR 0b0100000#7 (regBits rs2) rs1 0b000#3 rd 0b0110011#7
  | .mul rd rs1 rs2 => encR 0b0000001#7 (regBits rs2) rs1 0b000#3 rd 0b0110011#7
  | .mulh rd rs1 rs2 => encR 0b0000001#7 (regBits rs2) rs1 0b001#3 rd 0b0110011#7
  | .mulhsu rd rs1 rs2 => encR 0b0000001#7 (regBits rs2) rs1 0b010#3 rd 0b0110011#7
  | .mulhu rd rs1 rs2 => encR 0b0000001#7 (regBits rs2) rs1 0b011#3 rd 0b0110011#7
  | .div rd rs1 rs2 => encR 0b0000001#7 (regBits rs2) rs1 0b100#3 rd 0b0110011#7
  | .divu rd rs1 rs2 => encR 0b0000001#7 (regBits rs2) rs1 0b101#3 rd 0b0110011#7
  | .rem rd rs1 rs2 => encR 0b0000001#7 (regBits rs2) rs1 0b110#3 rd 0b0110011#7
  | .remu rd rs1 rs2 => encR 0b0000001#7 (regBits rs2) rs1 0b111#3 rd 0b0110011#7
  | .xor rd rs1 rs2 => encR 0b0000000#7 (regBits rs2) rs1 0b100#3 rd 0b0110011#7
  | .xori rd rs1 imm => encI imm rs1 0b100#3 rd 0b0010011#7
  | .or rd rs1 rs2 => encR 0b0000000#7 (regBits rs2) rs1 0b110#3 rd 0b0110011#7
  | .ori rd rs1 imm => encI imm rs1 0b110#3 rd 0b0010011#7
  | .and rd rs1 rs2 => encR 0b0000000#7 (regBits rs2) rs1 0b111#3 rd 0b0110011#7
  | .andi rd rs1 imm => encI imm rs1 0b111#3 rd 0b0010011#7
  | .sll rd rs1 rs2 => encR 0b0000000#7 (regBits rs2) rs1 0b001#3 rd 0b0110011#7
  | .slli rd rs1 shamt => encR 0b0000000#7 shamt rs1 0b001#3 rd 0b0010011#7
  | .srl rd rs1 rs2 => encR 0b0000000#7 (regBits rs2) rs1 0b101#3 rd 0b0110011#7
  | .srli rd rs1 shamt => encR 0b0000000#7 shamt rs1 0b101#3 rd 0b0010011#7
  | .sra rd rs1 rs2 => encR 0b0100000#7 (regBits rs2) rs1 0b101#3 rd 0b0110011#7
  | .srai rd rs1 shamt => encR 0b0100000#7 shamt rs1 0b101#3 rd 0b0010011#7
  | .slt rd rs1 rs2 => encR 0b0000000#7 (regBits rs2) rs1 0b010#3 rd 0b0110011#7
  | .slti rd rs1 imm => encI imm rs1 0b010#3 rd 0b0010011#7
  | .sltiu rd rs1 imm => encI imm rs1 0b011#3 rd 0b0010011#7
  | .sltu rd rs1 rs2 => encR 0b0000000#7 (regBits rs2) rs1 0b011#3 rd 0b0110011#7
  | .jal rd offset => encJ offset rd 0b1101111#7
  | .jalr rd rs1 offset => encI offset rs1 0b000#3 rd 0b1100111#7
  | .beq rs1 rs2 offset => encB offset rs2 rs1 0b000#3 0b1100011#7
  | .bne rs1 rs2 offset => encB offset rs2 rs1 0b001#3 0b1100011#7
  | .blt rs1 rs2 offset => encB offset rs2 rs1 0b100#3 0b1100011#7
  | .bge rs1 rs2 offset => encB offset rs2 rs1 0b101#3 0b1100011#7
  | .bltu rs1 rs2 offset => encB offset rs2 rs1 0b110#3 0b1100011#7
  | .bgeu rs1 rs2 offset => encB offset rs2 rs1 0b111#3 0b1100011#7
  | .lb rd rs1 offset => encI offset rs1 0b000#3 rd 0b0000011#7
  | .lh rd rs1 offset => encI offset rs1 0b001#3 rd 0b0000011#7
  | .lbu rd rs1 offset => encI offset rs1 0b100#3 rd 0b0000011#7
  | .lhu rd rs1 offset => encI offset rs1 0b101#3 rd 0b0000011#7
  | .lw rd rs1 offset => encI offset rs1 0b010#3 rd 0b0000011#7
  | .sb rs2 rs1 offset => encS offset rs2 rs1 0b000#3 0b0100011#7
  | .sh rs2 rs1 offset => encS offset rs2 rs1 0b001#3 0b0100011#7
  | .sw rs2 rs1 offset => encS offset rs2 rs1 0b010#3 0b0100011#7

end Sys2Proof
end

