-- ==== Sys2Proof/Config.lean ====
section
/-! DEFINITION. What an implementation or a launch fixes and the spec leaves open (spec rule R7), the model's named reset
values, and the free values (opaque constants: nothing can be proved of their values). -/

namespace Sys2Proof

/-- `RESET_PC` of `Machine.State.reset` (R7, R230: a launch parameter, a multiple of 4; the spec picks no value).
DESIGN CHOICE, notes/assumptions/5.md: the address of the single-instruction vectors of 95_test_vectors.md section 2.
Unsafe: a claim about `State.reset` could lean on it. -/
def Config.resetPc : Word := 0x00001000#32

/-- What `x[1]` to `x[31]` hold in `Machine.State.reset` (R22: unspecified; R23: "It must not read as zero").
DESIGN CHOICE, notes/assumptions/2.md: one fixed value that is not zero. Unsafe: a claim about `State.reset` could lean
on it. A launch (Machine/Launch.lean) takes these values as an argument instead. -/
def Config.unspecifiedReg : Word := 0xA5A5A5A4#32

/-- `MISALIGNED_POLICY` (R36): what a misaligned data access does. The spec fixes it to `fault`, its only value. -/
inductive MisalignedPolicy where
  /-- raise `MisalignedAccess(addr)` (R36, D4) -/
  | fault
  deriving DecidableEq, Repr

/-- The policy R36 fixes. UNVERIFIED of the hardware (D4), notes/assumptions/15.md; safe: the machine stops. -/
def Config.misalignedPolicy : MisalignedPolicy := .fault

/-- `MEM_ORG` (R44): whether instruction fetch and data accesses see one memory. -/
inductive MemOrg where
  /-- one memory -/
  | unified
  /-- two memories -/
  | harvard
  deriving DecidableEq, Repr, Inhabited

/-- `MEM_ORG` is left open and never consulted (R44, D7): the machine faults on every access on which the two differ, so no
definition of the machine reads this constant. See notes/assumptions/7.md; safe. -/
opaque Config.memOrg : MemOrg

/-- The four division functions of R121. -/
inductive DivOp where
  /-- `DivS` -/
  | divS
  /-- `RemS` -/
  | remS
  /-- `DivU` -/
  | divU
  /-- `RemU` -/
  | remU
  deriving DecidableEq, Repr

/-- `DIV_CORNER` (R7, R121): the two treatments R121 names for a zero divisor and for the signed overflow. -/
inductive DivCorner where
  /-- the default: the table of R121 (the RISC-V "M" values) -/
  | riscvM
  /-- "an uninterpreted function of (a, b) for exactly these inputs" -/
  | uninterpreted
  deriving DecidableEq, Repr

/-- The results at the division corners when `DIV_CORNER` is left uninterpreted (R121): a FREE VALUE for each function
and pair of operands, an opaque constant of which nothing can be proved. See notes/assumptions/12.md; safe. -/
opaque Config.freeDivCorner : DivOp → Word → Word → Word

end Sys2Proof
end

