-- ==== Sys2Proof/Machine/State.lean ====
section
/-! DEFINITION. The state of the machine, the reasons a step stops, and the state after reset (spec 10_state.md; the
launch parameters of R7; the faults of R201). -/

namespace Sys2Proof.Machine

/-- The faults of R201, each with the `info` R201 gives it. All are terminal and precise (R200). None is a claim that the
hardware detects the condition: each marks a situation the spec's source leaves undefined, and the machine stops, so each
is SAFE (no false claim about the hardware can be proved from a run that stops). -/
inductive Fault where
  /-- JAL, JALR and taken branches whose target is not a multiple of 4 (R162, R176); the fetch at such a `pc` (R43). Safe. -/
  | misalignedFetch (target : Word)
  /-- the fetch outside `IMAGE` (R43). Safe. -/
  | fetchAccessFault (pc : Word)
  /-- the decode of a word no row of the opcode table matches (R75, R76). Safe. -/
  | illegalInstruction (word : Word)
  /-- LH, LHU, SH at an odd address; LW, SW at an address that is not a multiple of 4 (R36). Safe. -/
  | misalignedAccess (addr : Word)
  /-- a load or store that touches a byte of `IMAGE` (R44). Safe. -/
  | imageAccess (addr : Word)
  /-- a load or store that touches a byte outside `MEM_VALID` (R38). Safe. -/
  | accessFault (addr : Word)
  /-- a load of a byte that nothing has given a value (R23); `addr` is the lowest such byte (notes/assumptions/4.md). Safe. -/
  | unwrittenRead (addr : Word)
  deriving DecidableEq, Repr

/-- Why the machine has no meaning for an instruction. Every instruction has one, so no step answers with a refusal. -/
inductive Refusal where
  /-- raised by an arm of `exec` whose instruction has no meaning yet (none is left). Safe. -/
  | notModelled (mnemonic : String)
  deriving DecidableEq, Repr

/-- `status` of R21. -/
inductive Status where
  /-- after reset, and while instructions execute -/
  | running
  /-- a step began with `pc` = `END_PC` (R236) -/
  | ended
  /-- a fault was raised (R200): its name and its info -/
  | faulted (f : Fault)
  deriving DecidableEq, Repr

/-- `IMAGE` (R43): a base address and a list of 32-bit words. -/
structure Image where
  base : Word
  words : List Word
  deriving DecidableEq, Repr

/-- Whether a byte address lies in the image: `IMAGE.base` to `IMAGE.base + 4k - 1` (R43). -/
def Image.contains (im : Image) (a : Nat) : Bool :=
  decide (im.base.toNat ≤ a) && decide (a < im.base.toNat + 4 * im.words.length)

/-- What R43 asks of an image: the base a multiple of 4, and no wrap past `0xFFFFFFFF`. -/
abbrev Image.wf (im : Image) : Prop :=
  im.base.toNat % 4 = 0 ∧ im.base.toNat + 4 * im.words.length ≤ 2 ^ 32

/-- A range of byte addresses, `base` to `base + size - 1`: a piece of `MEM_VALID` (R38). -/
structure Region where
  base : Nat
  size : Nat
  deriving DecidableEq, Repr

/-- Whether a byte address lies in the range. -/
def Region.contains (r : Region) (a : Nat) : Bool := decide (r.base ≤ a) && decide (a < r.base + r.size)

/-- `M` (R19): the bytes that have a value, as (address, byte) pairs with addresses strictly rising (`Memory.wf`). -/
abbrev Memory := List Host.Cell

/-- What an address reads as that `Memory` does not list: no value, the byte is unwritten (R23).
See notes/assumptions/3.md; safe: reading it faults. -/
def Memory.unlisted : Option Byte := none

/-- The canonical form: addresses strictly rising, each a 32-bit address, and no entry equal to what an unlisted address
reads as. -/
abbrev Memory.wf (m : Memory) : Prop :=
  m.Pairwise (fun c d => c.1 < d.1) ∧ ∀ c ∈ m, c.1 < 2 ^ 32 ∧ some c.2 ≠ Memory.unlisted

/-- The machine: (`x`, `pc`, `M`, `status`) of 10_state.md, the step count of R237, and the launch parameters (R7) that
stay fixed during a run. -/
structure State where
  /-- the general registers `x[0]` to `x[31]` (R10); read and written by `readReg` and `writeReg` only (R11) -/
  x : Vector Word 32
  /-- the address of the instruction being executed (R14) -/
  pc : Word
  /-- data memory `M` (R19, R30) -/
  mem : Memory
  /-- R21 -/
  status : Status
  /-- the instructions completed without fault since reset (R237) -/
  steps : Nat
  /-- `IMAGE` (R43) -/
  image : Image
  /-- `END_PC` (R236) -/
  endPc : Word
  /-- `MEM_VALID` (R38): these ranges, less the image -/
  memValid : List Region
  /-- `DIV_CORNER` (R121) -/
  divCorner : DivCorner
  deriving DecidableEq, Repr

/-- The default of `MEM_VALID` (R38): every address (outside the image). -/
def allAddresses : List Region := [⟨0, 2 ^ 32⟩]

/-- Thirty-two registers that hold one value, with `x[0]` = 0 (R11, R22). -/
def regsFilled (v : Word) : Vector Word 32 := (Vector.replicate 32 v).set 0 0#32

/-- The machine right after reset (R22, R231, R232), with nothing placed: `pc` = `RESET_PC`, `x[0]` = 0, `status` running,
no byte of `M` with a value, an image of no word whose end is `END_PC` (R236's convention with k = 0), and the defaults of
`MEM_VALID` (R38) and `DIV_CORNER` (R121). The values the spec leaves open: notes/assumptions/2.md, 5.md, 6.md. -/
def State.reset : State where
  x := regsFilled Config.unspecifiedReg
  pc := Config.resetPc
  mem := []
  status := .running
  steps := 0
  image := ⟨Config.resetPc, []⟩
  endPc := Config.resetPc
  memValid := allAddresses
  divCorner := .riscvM

/-- What a step answers. -/
abbrev Result := Host.Outcome State Fault Refusal

end Sys2Proof.Machine
end

