-- ==== Sys2Proof/Machine/Ops.lean ====
section
/-! DEFINITION. The named operations over registers, `pc` and memory, the fault mechanism, and the fetch
(spec 10_state.md, 20_memory.md, 60_exceptions.md). Meanings reach the state through these only. -/

namespace Sys2Proof.Machine

/-! ### One update per field -/

/-- `pc <- v` (R8). -/
def State.withPc (s : State) (v : Word) : State := { s with pc := v }
/-- A new content of `M`. -/
def State.withMem (s : State) (m : Memory) : State := { s with mem := m }
/-- A new `status` (R21). -/
def State.withStatus (s : State) (st : Status) : State := { s with status := st }
/-- One more completed instruction (R234, R237). -/
def State.countStep (s : State) : State := { s with steps := s.steps + 1 }

/-! ### Registers (R10, R11, R13) -/

/-- `x[r]`: register 0 reads 0 always (R11). -/
def State.readReg (s : State) (r : RegIdx) : Word := if r = 0 then 0#32 else s.x[r.val]

/-- `x[r] <- v`: a write to register 0 is discarded (R11). -/
def State.writeReg (s : State) (r : RegIdx) (v : Word) : State :=
  if r = 0 then s else { s with x := s.x.set r.val v }

/-- `pc <- pc + 4`, modulo 2^32 (R14, R15). -/
def State.advance (s : State) : State := s.withPc (s.pc + 4#32)

/-! ### The fault mechanism (R200, R201, R204)

A fault is taken by stopping: there is no trap entry (R204), nothing is saved but in `status`, and there is no return
from one (R205), so no operation stands beside `raise`. -/

/-- `raise F(info)` (R8, R200): the step ends in the fault; the state it would have changed is untouched. -/
def raise (f : Fault) : Result := .fault f

/-- Goes on with the value of a check or stops in its fault: "the first that fails is the fault reported" (R203). -/
def orRaise {α : Type} (e : Except Fault α) (k : α → Result) : Result :=
  match e with
  | .ok a => k a
  | .error f => raise f

/-- The state after a step as R200, R234 and R236 write it, `status` included: a fault sets `status` to
`faulted(F, info)` and changes nothing else. -/
def State.settle (s : State) (o : Result) : State :=
  match o with
  | .next t => t
  | .fault f => s.withStatus (.faulted f)
  | .refused _ => s

/-- `steps <- steps + 1` once an instruction has completed without fault (R234, R237). -/
def countCompleted (o : Result) : Result :=
  match o with
  | .next t => .next t.countStep
  | .fault f => .fault f
  | .refused r => .refused r

/-! ### The ways an instruction ends -/

/-- `x[rd] <- v; pc <- pc + 4` (R8, R14). -/
def finishReg (rd : RegIdx) (v : Word) (s : State) : Result := .next ((s.writeReg rd v).advance)

/-- Whether an address is a multiple of 4 (R15): the test of R162 and R176. -/
def aligned4 (a : Word) : Bool := a.toNat % 4 == 0

/-- `pc <- target` if the target is a multiple of 4, else `MisalignedFetch(target)` (R176). -/
def transfer (target : Word) (s : State) : Result :=
  if aligned4 target then .next (s.withPc target) else raise (.misalignedFetch target)

/-- `x[rd] <- pc + 4; pc <- target` if the target is a multiple of 4, else `MisalignedFetch(target)` with nothing written
(R160 to R162). -/
def jumpLink (rd : RegIdx) (target : Word) (s : State) : Result :=
  if aligned4 target then .next ((s.writeReg rd (s.pc + 4#32)).withPc target) else raise (.misalignedFetch target)

/-! ### Bytes of memory (R19, R23, R30) -/

/-- The byte at an address, if it has a value. -/
def Memory.read : Memory → Nat → Option Byte
  | [], _ => Memory.unlisted
  | (k, b) :: m, a => if k = a then some b else Memory.read m a

/-- Gives the byte at an address a value, keeping the canonical form. No byte equals what an unlisted address reads as
(`none`), so no write removes an entry. -/
def Memory.write : Memory → Nat → Byte → Memory
  | [], a, v => [(a, v)]
  | (k, b) :: m, a, v =>
    if a < k then (a, v) :: (k, b) :: m
    else if a = k then (a, v) :: m
    else (k, b) :: Memory.write m a v

/-- Writes bytes at rising addresses from `a` on (R33 step 4). -/
def Memory.writeBytes : Memory → Nat → List Byte → Memory
  | m, _, [] => m
  | m, a, v :: vs => Memory.writeBytes (Memory.write m a v) (a + 1) vs

/-- Reads `n` bytes at rising addresses from `a` on; the first without a value is the fault (R32 step 4, R23). -/
def Memory.readBytes (m : Memory) (a : Nat) : Nat → Except Fault (List Byte)
  | 0 => .ok []
  | n + 1 =>
    match m.read a with
    | none => .error (.unwrittenRead (BitVec.ofNat 32 a))
    | some b =>
      match Memory.readBytes m (a + 1) n with
      | .ok bs => .ok (b :: bs)
      | .error f => .error f

/-! ### Byte order (R34) -/

/-- The number whose little-endian bytes these are: the first byte is the least significant (R32 step 5, R34). -/
def joinLE : List Byte → Nat
  | [] => 0
  | b :: bs => b.toNat + 256 * joinLE bs

/-- The low `n` bytes of a word, least significant first (R33 step 4, R34). -/
def splitLE (v : Word) : Nat → List Byte
  | 0 => []
  | n + 1 => v.setWidth 8 :: splitLE (v >>> 8) n

/-! ### Data accesses (R31 to R38, R44) -/

/-- The three access widths of R31. -/
inductive Width where
  | byte
  | half
  | word
  deriving DecidableEq, Repr

/-- `n` of R31 to R33: 1, 2 or 4. -/
abbrev Width.bytes : Width → Nat
  | .byte => 1
  | .half => 2
  | .word => 4

/-- The bits of an access. -/
abbrev Width.bits (w : Width) : Nat := 8 * w.bytes

/-- Whether a byte address is in `MEM_VALID`: in one of its ranges and outside the image (R38). -/
def State.inMemValid (s : State) (a : Nat) : Bool :=
  s.memValid.any (fun r => r.contains a) && !s.image.contains a

/-- The byte addresses `a` to `a + n - 1`. -/
def byteAddrs (a n : Nat) : List Nat := (List.range n).map (a + ·)

/-- The checks of R32 and R33 steps 1 to 3, in their order: alignment under `MISALIGNED_POLICY` (R36), the image (R44),
`MEM_VALID` (R38). -/
def checkAccess (s : State) (addr : Word) (w : Width) : Except Fault Unit :=
  if addr.toNat % w.bytes ≠ 0 then
    match Config.misalignedPolicy with
    | .fault => .error (.misalignedAccess addr)
  else if (byteAddrs addr.toNat w.bytes).any (fun a => s.image.contains a) then .error (.imageAccess addr)
  else if (byteAddrs addr.toNat w.bytes).any (fun a => !s.inMemValid a) then .error (.accessFault addr)
  else .ok ()

/-- `MemRead(addr, n)` (R32): the `8n` bits at `addr`. A read changes no state (R37). -/
def memRead (s : State) (addr : Word) (w : Width) : Except Fault (BitVec w.bits) :=
  match checkAccess s addr w with
  | .error f => .error f
  | .ok () =>
    match s.mem.readBytes addr.toNat w.bytes with
    | .error f => .error f
    | .ok bs => .ok (BitVec.ofNat w.bits (joinLE bs))

/-- `MemWrite(addr, n, v)` (R33), `v` the low `8n` bits of a word: the memory after it. -/
def memWrite (s : State) (addr : Word) (w : Width) (v : Word) : Except Fault Memory :=
  match checkAccess s addr w with
  | .error f => .error f
  | .ok () => .ok (s.mem.writeBytes addr.toNat (splitLE v w.bytes))

/-! ### Instruction fetch (R43) -/

/-- `Fetch(pc)` (R43): alignment, then `pc` and `pc + 3` inside the image, then the image's word. The last case, a word
past the list, arises in no image of R43's form (notes/assumptions/20.md). -/
def fetch (s : State) : Except Fault Word :=
  if ¬ aligned4 s.pc then .error (.misalignedFetch s.pc)
  else if ¬ (s.image.contains s.pc.toNat && s.image.contains (s.pc.toNat + 3)) then .error (.fetchAccessFault s.pc)
  else
    match s.image.words[(s.pc.toNat - s.image.base.toNat) / 4]? with
    | some w => .ok w
    | none => .error (.fetchAccessFault s.pc)

end Sys2Proof.Machine
end

