-- ==== Sys2Proof/Machine/Operands.lean ====
section
/-! DEFINITION. The operand forms: immediates as 32-bit values, effective addresses, targets, shift amounts (spec rules
R8, R30, R64 to R69, R146). -/

namespace Sys2Proof.Machine

/-- `sext_12` (R8): the immediate of formats I and S as 32 bits (R64, R65). -/
def sext12 (imm : BitVec 12) : Word := imm.signExtend 32

/-- `sext_13` (R8): a branch's offset as 32 bits (R66). -/
def sext13 (offset : BitVec 13) : Word := offset.signExtend 32

/-- `sext_21` (R8): JAL's offset as 32 bits (R68). -/
def sext21 (offset : BitVec 21) : Word := offset.signExtend 32

/-- `{inst[31:12], 12{0}}` (R67). -/
def upperImm (imm20 : BitVec 20) : Word := imm20 ++ 0#12

/-- The 32-bit immediate of an instruction whose format has one: "every immediate is expanded to 32 bits before use"
(R64 to R68). The shift forms have a `shamt` instead (R69). -/
def immediate32 : Instr → Option Word
  | .lui _ imm | .auipc _ imm => some (upperImm imm)
  | .jal _ offset => some (sext21 offset)
  | .addi _ _ imm | .xori _ _ imm | .ori _ _ imm | .andi _ _ imm | .slti _ _ imm | .sltiu _ _ imm => some (sext12 imm)
  | .jalr _ _ offset | .lb _ _ offset | .lh _ _ offset | .lbu _ _ offset | .lhu _ _ offset
  | .lw _ _ offset => some (sext12 offset)
  | .sb _ _ offset | .sh _ _ offset | .sw _ _ offset => some (sext12 offset)
  | .beq _ _ offset | .bne _ _ offset | .blt _ _ offset | .bge _ _ offset | .bltu _ _ offset
  | .bgeu _ _ offset => some (sext13 offset)
  | .add _ _ _ | .sub _ _ _ | .mul _ _ _ | .mulh _ _ _ | .mulhsu _ _ _ | .mulhu _ _ _
  | .div _ _ _ | .divu _ _ _ | .rem _ _ _ | .remu _ _ _ | .xor _ _ _ | .or _ _ _ | .and _ _ _
  | .sll _ _ _ | .slli _ _ _ | .srl _ _ _ | .srli _ _ _ | .sra _ _ _ | .srai _ _ _
  | .slt _ _ _ | .sltu _ _ _ => none

/-- The effective address of a load or store, modulo 2^32 (R30). -/
def effAddr (s : State) (rs1 : RegIdx) (offset : BitVec 12) : Word := s.readReg rs1 + sext12 offset

/-- A branch's target, modulo 2^32 (R177). -/
def branchTarget (s : State) (offset : BitVec 13) : Word := s.pc + sext13 offset

/-- JAL's target, modulo 2^32 (R160). -/
def jalTarget (s : State) (offset : BitVec 21) : Word := s.pc + sext21 offset

/-- JALR's target: the sum with bit 0 cleared (R161). -/
def jalrTarget (s : State) (rs1 : RegIdx) (offset : BitVec 12) : Word := effAddr s rs1 offset &&& 0xFFFFFFFE#32

/-- The shift amount of the register forms: the 5 least significant bits, `x[rs2][4:0]` (R146, C7). -/
def shiftAmount (v : Word) : Nat := (v.extractLsb' 0 5).toNat

/-- `sext_8n(v)` (R185). -/
def sextTo32 {n : Nat} (v : BitVec n) : Word := v.signExtend 32

/-- `zext_8n(v)` (R185). -/
def zextTo32 {n : Nat} (v : BitVec n) : Word := v.setWidth 32

end Sys2Proof.Machine
end

