-- ==== Sys2Proof/Machine/Alu.lean ====
section
/-! DEFINITION. The results of the arithmetic and shift instructions on 32-bit patterns (spec rules R121, R122, R146). -/

namespace Sys2Proof.Machine

/-- Bits 63:32 of the exact product `p` as a 64-bit two's complement pattern, `(P mod 2^64)[63:32]` (R114 to R116). -/
def upperHalf (p : Int) : Word := (BitVec.ofInt 64 p).extractLsb' 32 32

/-- `v << n` of R146. -/
def shiftLeft (v : Word) (n : Nat) : Word := v <<< n

/-- `v >>u n` of R146. -/
def shiftRightU (v : Word) (n : Nat) : Word := v >>> n

/-- `v >>s n` of R146. -/
def shiftRightS (v : Word) (n : Nat) : Word := v.sshiftRight n

/-- The inputs on which `DIV_CORNER` decides (R121): a zero divisor, and for `DivS` and `RemS` the signed overflow. -/
def divIsCorner (op : DivOp) (a b : Word) : Bool :=
  b == 0#32 ||
    match op with
    | .divS | .remS => a == 0x80000000#32 && b == 0xFFFFFFFF#32
    | .divU | .remU => false

/-- The table of R121, the default of `DIV_CORNER`. PRESUMED (D10, general knowledge), notes/assumptions/12.md; unsafe. -/
def divCornerTable (op : DivOp) (a b : Word) : Word :=
  match op with
  | .divS => if b = 0#32 then 0xFFFFFFFF#32 else 0x80000000#32
  | .remS => if b = 0#32 then a else 0#32
  | .divU => 0xFFFFFFFF#32
  | .remU => a

/-- What `DIV_CORNER` gives at a corner (R121). -/
def divCornerValue (p : DivCorner) (op : DivOp) (a b : Word) : Word :=
  match p with
  | .riscvM => divCornerTable op a b
  | .uninterpreted => Config.freeDivCorner op a b

/-- The quotients and remainders away from the corners: rounded toward zero, and the remainder that goes with that
quotient (R121). -/
def divExact (op : DivOp) (a b : Word) : Word :=
  match op with
  | .divS => to32 ((s32 a).tdiv (s32 b))
  | .remS => to32 (s32 a - s32 b * (s32 a).tdiv (s32 b))
  | .divU => BitVec.ofNat 32 (u32 a / u32 b)
  | .remU => BitVec.ofNat 32 (u32 a % u32 b)

/-- `DivS`, `RemS`, `DivU`, `RemU` of R121; no operands fault. -/
def divResult (p : DivCorner) (op : DivOp) (a b : Word) : Word :=
  if divIsCorner op a b then divCornerValue p op a b else divExact op a b

end Sys2Proof.Machine
end

