-- ==== Sys2Proof/Machine/Arithmetic.lean ====
section
/-! DEFINITION. The arithmetic family: ADD, ADDI, SUB and the "M" instructions (spec 41_arithmetic.md). -/

namespace Sys2Proof.Machine

/-- ADD (R110): overflow is ignored. -/
def execAdd (rd rs1 rs2 : RegIdx) (s : State) : Result :=
  finishReg rd (s.readReg rs1 + s.readReg rs2) s

/-- ADDI (R111). -/
def execAddi (rd rs1 : RegIdx) (imm : BitVec 12) (s : State) : Result :=
  finishReg rd (s.readReg rs1 + sext12 imm) s

/-- SUB (R112). -/
def execSub (rd rs1 rs2 : RegIdx) (s : State) : Result :=
  finishReg rd (s.readReg rs1 - s.readReg rs2) s

/-- MUL (R113): the low 32 bits of the product. -/
def execMul (rd rs1 rs2 : RegIdx) (s : State) : Result :=
  finishReg rd (s.readReg rs1 * s.readReg rs2) s

/-- MULH (R114). -/
def execMulh (rd rs1 rs2 : RegIdx) (s : State) : Result :=
  finishReg rd (upperHalf (s32 (s.readReg rs1) * s32 (s.readReg rs2))) s

/-- MULHSU (R115): `rs1` signed, `rs2` unsigned. -/
def execMulhsu (rd rs1 rs2 : RegIdx) (s : State) : Result :=
  finishReg rd (upperHalf (s32 (s.readReg rs1) * (u32 (s.readReg rs2) : Int))) s

/-- MULHU (R116). -/
def execMulhu (rd rs1 rs2 : RegIdx) (s : State) : Result :=
  finishReg rd (upperHalf ((u32 (s.readReg rs1) : Int) * (u32 (s.readReg rs2) : Int))) s

/-- DIV (R117, R121). -/
def execDiv (rd rs1 rs2 : RegIdx) (s : State) : Result :=
  finishReg rd (divResult s.divCorner .divS (s.readReg rs1) (s.readReg rs2)) s

/-- DIVU (R118, R121). -/
def execDivu (rd rs1 rs2 : RegIdx) (s : State) : Result :=
  finishReg rd (divResult s.divCorner .divU (s.readReg rs1) (s.readReg rs2)) s

/-- REM (R119, R121). -/
def execRem (rd rs1 rs2 : RegIdx) (s : State) : Result :=
  finishReg rd (divResult s.divCorner .remS (s.readReg rs1) (s.readReg rs2)) s

/-- REMU (R120, R121). -/
def execRemu (rd rs1 rs2 : RegIdx) (s : State) : Result :=
  finishReg rd (divResult s.divCorner .remU (s.readReg rs1) (s.readReg rs2)) s

end Sys2Proof.Machine
end

