-- ==== Sys2Proof/Machine/Boolean.lean ====
section
/-! DEFINITION. The boolean-logic family: XOR, XORI, OR, ORI, AND, ANDI, bit by bit (spec 42_boolean_logic.md). -/

namespace Sys2Proof.Machine

/-- XOR (R130). -/
def execXor (rd rs1 rs2 : RegIdx) (s : State) : Result :=
  finishReg rd (s.readReg rs1 ^^^ s.readReg rs2) s

/-- XORI (R131). -/
def execXori (rd rs1 : RegIdx) (imm : BitVec 12) (s : State) : Result :=
  finishReg rd (s.readReg rs1 ^^^ sext12 imm) s

/-- OR (R132). -/
def execOr (rd rs1 rs2 : RegIdx) (s : State) : Result :=
  finishReg rd (s.readReg rs1 ||| s.readReg rs2) s

/-- ORI (R133). -/
def execOri (rd rs1 : RegIdx) (imm : BitVec 12) (s : State) : Result :=
  finishReg rd (s.readReg rs1 ||| sext12 imm) s

/-- AND (R134). -/
def execAnd (rd rs1 rs2 : RegIdx) (s : State) : Result :=
  finishReg rd (s.readReg rs1 &&& s.readReg rs2) s

/-- ANDI (R135, C5). -/
def execAndi (rd rs1 : RegIdx) (imm : BitVec 12) (s : State) : Result :=
  finishReg rd (s.readReg rs1 &&& sext12 imm) s

end Sys2Proof.Machine
end

