-- ==== Sys2Proof/Machine/Flags.lean ====
section
/-! DEFINITION. There are no flags and no condition codes (spec rule R16): in their place the comparisons of R8, which
the compare instructions write as 0 or 1 and the branches test. -/

namespace Sys2Proof.Machine

/-- `a == b` on patterns (R8). -/
def condEq (a b : Word) : Bool := a == b

/-- `a <s b`: `s32(a) < s32(b)` (R8). -/
def condLtS (a b : Word) : Bool := decide (s32 a < s32 b)

/-- `a <u b`: `u32(a) < u32(b)` (R8). -/
def condLtU (a b : Word) : Bool := decide (u32 a < u32 b)

/-- A comparison used as a value: 1 when true and 0 when false (R8). -/
def boolWord (c : Bool) : Word := if c then 1#32 else 0#32

end Sys2Proof.Machine
end

