-- ==== Sys2Proof/Machine/Branch.lean ====
section
/-! DEFINITION. The conditional branches: BEQ, BNE, BLT, BGE, BLTU, BGEU (spec 46_branch.md). -/

namespace Sys2Proof.Machine

/-- What the six branches share (R177): taken to the target, or on to `pc + 4`. A branch that is not taken never faults
(R176). -/
def branchIf (cond : Bool) (offset : BitVec 13) (s : State) : Result :=
  if cond then transfer (branchTarget s offset) s else .next s.advance

/-- BEQ (R170). -/
def execBeq (rs1 rs2 : RegIdx) (offset : BitVec 13) (s : State) : Result :=
  branchIf (condEq (s.readReg rs1) (s.readReg rs2)) offset s

/-- BNE (R171). -/
def execBne (rs1 rs2 : RegIdx) (offset : BitVec 13) (s : State) : Result :=
  branchIf (!condEq (s.readReg rs1) (s.readReg rs2)) offset s

/-- BLT (R172). -/
def execBlt (rs1 rs2 : RegIdx) (offset : BitVec 13) (s : State) : Result :=
  branchIf (condLtS (s.readReg rs1) (s.readReg rs2)) offset s

/-- BGE (R173). -/
def execBge (rs1 rs2 : RegIdx) (offset : BitVec 13) (s : State) : Result :=
  branchIf (!condLtS (s.readReg rs1) (s.readReg rs2)) offset s

/-- BLTU (R174). -/
def execBltu (rs1 rs2 : RegIdx) (offset : BitVec 13) (s : State) : Result :=
  branchIf (condLtU (s.readReg rs1) (s.readReg rs2)) offset s

/-- BGEU (R175). -/
def execBgeu (rs1 rs2 : RegIdx) (offset : BitVec 13) (s : State) : Result :=
  branchIf (!condLtU (s.readReg rs1) (s.readReg rs2)) offset s

end Sys2Proof.Machine
end

