-- ==== Sys2Proof/Machine/Compare.lean ====
section
/-! DEFINITION. The compare family: SLT, SLTI, SLTIU, SLTU (spec 44_compare.md). -/

namespace Sys2Proof.Machine

/-- SLT (R150). -/
def execSlt (rd rs1 rs2 : RegIdx) (s : State) : Result :=
  finishReg rd (boolWord (condLtS (s.readReg rs1) (s.readReg rs2))) s

/-- SLTI (R151). -/
def execSlti (rd rs1 : RegIdx) (imm : BitVec 12) (s : State) : Result :=
  finishReg rd (boolWord (condLtS (s.readReg rs1) (sext12 imm))) s

/-- SLTIU (R152): sign-extended first, then compared as unsigned. -/
def execSltiu (rd rs1 : RegIdx) (imm : BitVec 12) (s : State) : Result :=
  finishReg rd (boolWord (condLtU (s.readReg rs1) (sext12 imm))) s

/-- SLTU (R153). -/
def execSltu (rd rs1 rs2 : RegIdx) (s : State) : Result :=
  finishReg rd (boolWord (condLtU (s.readReg rs1) (s.readReg rs2))) s

end Sys2Proof.Machine
end

