-- ==== Sys2Proof/Machine/Jump.lean ====
section
/-! DEFINITION. The unconditional jumps: JAL, JALR (spec 45_jump.md). -/

namespace Sys2Proof.Machine

/-- JAL (R160, R162). -/
def execJal (rd : RegIdx) (offset : BitVec 21) (s : State) : Result := jumpLink rd (jalTarget s offset) s

/-- JALR (R161, R162): the target is computed from the old `x[rs1]`. -/
def execJalr (rd rs1 : RegIdx) (offset : BitVec 12) (s : State) : Result := jumpLink rd (jalrTarget s rs1 offset) s

end Sys2Proof.Machine
end

