-- ==== Sys2Proof/Machine/Load.lean ====
section
/-! DEFINITION. The loads: LB, LH, LBU, LHU, LW (spec 47_load.md). -/

namespace Sys2Proof.Machine

/-- What the five loads share (R185): `MemRead` at the effective address, then the extended value into `rd`. A load to
`x0` still reads and can still fault (R77). -/
def loadInto (w : Width) (ext : BitVec w.bits → Word) (rd rs1 : RegIdx) (offset : BitVec 12) (s : State) : Result :=
  orRaise (memRead s (effAddr s rs1 offset) w) fun v => finishReg rd (ext v) s

/-- LB (R180). -/
def execLb (rd rs1 : RegIdx) (offset : BitVec 12) (s : State) : Result :=
  loadInto .byte sextTo32 rd rs1 offset s

/-- LH (R181). -/
def execLh (rd rs1 : RegIdx) (offset : BitVec 12) (s : State) : Result :=
  loadInto .half sextTo32 rd rs1 offset s

/-- LBU (R182). -/
def execLbu (rd rs1 : RegIdx) (offset : BitVec 12) (s : State) : Result :=
  loadInto .byte zextTo32 rd rs1 offset s

/-- LHU (R183). -/
def execLhu (rd rs1 : RegIdx) (offset : BitVec 12) (s : State) : Result :=
  loadInto .half zextTo32 rd rs1 offset s

/-- LW (R184). -/
def execLw (rd rs1 : RegIdx) (offset : BitVec 12) (s : State) : Result :=
  loadInto .word zextTo32 rd rs1 offset s

end Sys2Proof.Machine
end

