-- ==== Sys2Proof/Machine/LoadConstant.lean ====
section
/-! DEFINITION. The load-constant family: LUI, AUIPC (spec 40_load_constant.md). -/

namespace Sys2Proof.Machine

/-- LUI (R100). -/
def execLui (rd : RegIdx) (imm20 : BitVec 20) (s : State) : Result := finishReg rd (upperImm imm20) s

/-- AUIPC (R101): `pc` is this instruction's own address. -/
def execAuipc (rd : RegIdx) (imm20 : BitVec 20) (s : State) : Result := finishReg rd (s.pc + upperImm imm20) s

end Sys2Proof.Machine
end

