-- ==== Sys2Proof/Machine/Shift.lean ====
section
/-! DEFINITION. The shift family: SLL, SLLI, SRL, SRLI, SRA, SRAI (spec 43_shift.md, R146). -/

namespace Sys2Proof.Machine

/-- SLL (R140). -/
def execSll (rd rs1 rs2 : RegIdx) (s : State) : Result :=
  finishReg rd (shiftLeft (s.readReg rs1) (shiftAmount (s.readReg rs2))) s

/-- SLLI (R141). -/
def execSlli (rd rs1 : RegIdx) (shamt : BitVec 5) (s : State) : Result :=
  finishReg rd (shiftLeft (s.readReg rs1) shamt.toNat) s

/-- SRL (R142). -/
def execSrl (rd rs1 rs2 : RegIdx) (s : State) : Result :=
  finishReg rd (shiftRightU (s.readReg rs1) (shiftAmount (s.readReg rs2))) s

/-- SRLI (R143). -/
def execSrli (rd rs1 : RegIdx) (shamt : BitVec 5) (s : State) : Result :=
  finishReg rd (shiftRightU (s.readReg rs1) shamt.toNat) s

/-- SRA (R144). -/
def execSra (rd rs1 rs2 : RegIdx) (s : State) : Result :=
  finishReg rd (shiftRightS (s.readReg rs1) (shiftAmount (s.readReg rs2))) s

/-- SRAI (R145). -/
def execSrai (rd rs1 : RegIdx) (shamt : BitVec 5) (s : State) : Result :=
  finishReg rd (shiftRightS (s.readReg rs1) shamt.toNat) s

end Sys2Proof.Machine
end

