-- ==== Sys2Proof/Machine/Store.lean ====
section
/-! DEFINITION. The stores: SB, SH, SW (spec 48_store.md). -/

namespace Sys2Proof.Machine

/-- What the three stores share (R193): `MemWrite` of the low bytes of `x[rs2]` at the effective address. -/
def storeFrom (w : Width) (rs2 rs1 : RegIdx) (offset : BitVec 12) (s : State) : Result :=
  orRaise (memWrite s (effAddr s rs1 offset) w (s.readReg rs2)) fun m => .next (s.withMem m).advance

/-- SB (R190). -/
def execSb (rs2 rs1 : RegIdx) (offset : BitVec 12) (s : State) : Result :=
  storeFrom .byte rs2 rs1 offset s

/-- SH (R191). -/
def execSh (rs2 rs1 : RegIdx) (offset : BitVec 12) (s : State) : Result :=
  storeFrom .half rs2 rs1 offset s

/-- SW (R192). -/
def execSw (rs2 rs1 : RegIdx) (offset : BitVec 12) (s : State) : Result :=
  storeFrom .word rs2 rs1 offset s

end Sys2Proof.Machine
end

