-- ==== Sys2Proof/Machine/Step.lean ====
section
/-! DEFINITION. One step of the machine (spec rules R203, R234, R236), and the placing of one instruction where the next
step fetches it. -/

namespace Sys2Proof.Machine

/-- Fetch, decode and execute the instruction at `pc` (R203 steps 2 to 11, R234). -/
def runInstr (s : State) : Host.Outcome State Fault Refusal :=
  orRaise (fetch s) fun w =>
    match decode w with
    | .ok i => countCompleted (exec i s)
    | .error _ => raise (.illegalInstruction w)

/-- One step. While `status` is running: at `END_PC` the run is over, nothing is fetched (R236); else the instruction at
`pc` runs. A run that is over does not go on: an ended one keeps its state, a faulted one stays in its fault (R21; what
"a step" of a run that is over is, is the model's choice: notes/assumptions/10.md). -/
def step (s : State) : Host.Outcome State Fault Refusal :=
  match s.status with
  | .running => if s.pc = s.endPc then .next (s.withStatus .ended) else runInstr s
  | .ended => .next s
  | .faulted f => raise f

/-- `s` with the word `w` (its bits from `nbits` up 0) as a one-word image at `pc`, so that the next step fetches and
runs it: it stands for the load of a program, which happens outside the machine (notes/assumptions/6.md). `END_PC` moves
just past the word only where it would end the run before the fetch (R236). -/
def State.withFetchWord (s : State) (nbits w : Nat) : State :=
  { s with
    image := ⟨s.pc, [BitVec.ofNat 32 (w % 2 ^ nbits)]⟩
    endPc := if s.endPc = s.pc then s.pc + 4#32 else s.endPc
    status := .running }

end Sys2Proof.Machine
end

