-- ==== Sys2Proof/Machine/Launch.lean ====
section
/-! DEFINITION. The launch of a run: its parameters, the launches that are refused, and the first state (spec rules R7,
R22, R43, R230 to R232, R236). -/

namespace Sys2Proof.Machine

/-- The parameters of a launch (R7). `regs` gives every register a value: the ones the launch states (R231) and, for the
others, the free draw of R23; a claim for every `regs` holds for every draw. Slot 0 is ignored (R11). -/
structure LaunchParams where
  resetPc : Word
  endPc : Word
  image : Image
  memInit : List Host.Cell
  memValid : List Region := allAddresses
  regs : Vector Word 32
  divCorner : DivCorner := .riscvM
  deriving DecidableEq, Repr

/-- Why a launch "is refused (it is not a run)" (R230). -/
inductive LaunchError where
  /-- `RESET_PC` is not a multiple of 4 (R230) -/
  | badResetPc
  /-- `END_PC` is not a multiple of 4 (R236) -/
  | badEndPc
  /-- the image's base is not a multiple of 4, or the image wraps (R43) -/
  | badImage
  /-- `MEM_INIT` gives a value to a byte outside `MEM_VALID` or inside the image (R232) -/
  | badMemInit
  deriving DecidableEq, Repr

/-- `M` with the bytes of `MEM_INIT` (R232); of two entries for one address the later holds (notes/assumptions/21.md). -/
def memoryOf (cells : List Host.Cell) : Memory := cells.foldl (fun m c => m.write c.1 c.2) []

/-- The first state of a run with these parameters (R22, R231, R232), if it is one. -/
def launched (p : LaunchParams) : State where
  x := p.regs.set 0 0#32
  pc := p.resetPc
  mem := memoryOf p.memInit
  status := .running
  steps := 0
  image := p.image
  endPc := p.endPc
  memValid := p.memValid
  divCorner := p.divCorner

/-- A launch: refused by name, or the first state of the run (R230, R232, R236, R43). -/
def launch (p : LaunchParams) : Except LaunchError State :=
  if ¬ aligned4 p.resetPc then .error .badResetPc
  else if ¬ aligned4 p.endPc then .error .badEndPc
  else if ¬ p.image.wf then .error .badImage
  else if ¬ p.memInit.all (fun c => decide (c.1 < 2 ^ 32) && (launched p).inMemValid c.1) then .error .badMemInit
  else .ok (launched p)

end Sys2Proof.Machine
end

