-- ==== Sys2Proof/WellFormed.lean ====
section
/-! DEFINITION. Which instruction terms the encodings can spell, and what the formats say of each instruction: its
mnemonic and the registers it names (spec rules R13, R61, R66, R68). -/

namespace Sys2Proof

/-- Bit 0 of a branch offset "is not stored and is 0" (R66, R177); so too of a JAL offset (R68, R160). Every other
field of an instruction term has exactly the values its encoding field has. -/
def Instr.wellFormed : Instr → Bool
  | .jal _ offset => offset.getLsbD 0 == false
  | .beq _ _ offset | .bne _ _ offset | .blt _ _ offset
  | .bge _ _ offset | .bltu _ _ offset | .bgeu _ _ offset => offset.getLsbD 0 == false
  | .lui _ _ | .auipc _ _ | .add _ _ _ | .addi _ _ _ | .sub _ _ _ | .mul _ _ _ | .mulh _ _ _ | .mulhsu _ _ _
  | .mulhu _ _ _ | .div _ _ _ | .divu _ _ _ | .rem _ _ _ | .remu _ _ _ | .xor _ _ _ | .xori _ _ _ | .or _ _ _
  | .ori _ _ _ | .and _ _ _ | .andi _ _ _ | .sll _ _ _ | .slli _ _ _ | .srl _ _ _ | .srli _ _ _ | .sra _ _ _
  | .srai _ _ _ | .slt _ _ _ | .slti _ _ _ | .sltiu _ _ _ | .sltu _ _ _ | .jalr _ _ _ | .lb _ _ _ | .lh _ _ _
  | .lbu _ _ _ | .lhu _ _ _ | .lw _ _ _ | .sb _ _ _ | .sh _ _ _ | .sw _ _ _ => true

/-- The row of spec/opcode_table.json an instruction belongs to (R1). -/
def Instr.mnemonic : Instr → String
  | .lui _ _ => "LUI" | .auipc _ _ => "AUIPC"
  | .add _ _ _ => "ADD" | .addi _ _ _ => "ADDI" | .sub _ _ _ => "SUB"
  | .mul _ _ _ => "MUL" | .mulh _ _ _ => "MULH" | .mulhsu _ _ _ => "MULHSU" | .mulhu _ _ _ => "MULHU"
  | .div _ _ _ => "DIV" | .divu _ _ _ => "DIVU" | .rem _ _ _ => "REM" | .remu _ _ _ => "REMU"
  | .xor _ _ _ => "XOR" | .xori _ _ _ => "XORI" | .or _ _ _ => "OR" | .ori _ _ _ => "ORI"
  | .and _ _ _ => "AND" | .andi _ _ _ => "ANDI"
  | .sll _ _ _ => "SLL" | .slli _ _ _ => "SLLI" | .srl _ _ _ => "SRL" | .srli _ _ _ => "SRLI"
  | .sra _ _ _ => "SRA" | .srai _ _ _ => "SRAI"
  | .slt _ _ _ => "SLT" | .slti _ _ _ => "SLTI" | .sltiu _ _ _ => "SLTIU" | .sltu _ _ _ => "SLTU"
  | .jal _ _ => "JAL" | .jalr _ _ _ => "JALR"
  | .beq _ _ _ => "BEQ" | .bne _ _ _ => "BNE" | .blt _ _ _ => "BLT"
  | .bge _ _ _ => "BGE" | .bltu _ _ _ => "BLTU" | .bgeu _ _ _ => "BGEU"
  | .lb _ _ _ => "LB" | .lh _ _ _ => "LH" | .lbu _ _ _ => "LBU" | .lhu _ _ _ => "LHU" | .lw _ _ _ => "LW"
  | .sb _ _ _ => "SB" | .sh _ _ _ => "SH" | .sw _ _ _ => "SW"

/-- The register an instruction's `rd` field names, if its format has one (R13: R, I, U and J write `rd`; S and B
"write no register"). -/
def Instr.dest? : Instr → Option RegIdx
  | .lui rd _ | .auipc rd _ | .jal rd _ => some rd
  | .add rd _ _ | .sub rd _ _ | .mul rd _ _ | .mulh rd _ _ | .mulhsu rd _ _ | .mulhu rd _ _
  | .div rd _ _ | .divu rd _ _ | .rem rd _ _ | .remu rd _ _
  | .xor rd _ _ | .or rd _ _ | .and rd _ _ | .sll rd _ _ | .srl rd _ _ | .sra rd _ _
  | .slt rd _ _ | .sltu rd _ _ => some rd
  | .addi rd _ _ | .xori rd _ _ | .ori rd _ _ | .andi rd _ _ | .slti rd _ _ | .sltiu rd _ _ => some rd
  | .slli rd _ _ | .srli rd _ _ | .srai rd _ _ => some rd
  | .jalr rd _ _ | .lb rd _ _ | .lh rd _ _ | .lbu rd _ _ | .lhu rd _ _ | .lw rd _ _ => some rd
  | .beq _ _ _ | .bne _ _ _ | .blt _ _ _ | .bge _ _ _ | .bltu _ _ _ | .bgeu _ _ _ => none
  | .sb _ _ _ | .sh _ _ _ | .sw _ _ _ => none

/-- The registers an instruction reads (R13: R, S and B read `rs1` and `rs2`; I reads `rs1`; U and J read none). -/
def Instr.sources : Instr → List RegIdx
  | .lui _ _ | .auipc _ _ | .jal _ _ => []
  | .add _ a b | .sub _ a b | .mul _ a b | .mulh _ a b | .mulhsu _ a b | .mulhu _ a b
  | .div _ a b | .divu _ a b | .rem _ a b | .remu _ a b
  | .xor _ a b | .or _ a b | .and _ a b | .sll _ a b | .srl _ a b | .sra _ a b
  | .slt _ a b | .sltu _ a b => [a, b]
  | .addi _ a _ | .xori _ a _ | .ori _ a _ | .andi _ a _ | .slti _ a _ | .sltiu _ a _ => [a]
  | .slli _ a _ | .srli _ a _ | .srai _ a _ => [a]
  | .jalr _ a _ | .lb _ a _ | .lh _ a _ | .lbu _ a _ | .lhu _ a _ | .lw _ a _ => [a]
  | .beq a b _ | .bne a b _ | .blt a b _ | .bge a b _ | .bltu a b _ | .bgeu a b _ => [a, b]
  | .sb b a _ | .sh b a _ | .sw b a _ => [a, b]

/-- The control transfers: "none writes it except JAL, JALR and the branches" (R14, of `pc`). -/
def Instr.isTransfer : Instr → Bool
  | .jal _ _ | .jalr _ _ _ => true
  | .beq _ _ _ | .bne _ _ _ | .blt _ _ _ | .bge _ _ _ | .bltu _ _ _ | .bgeu _ _ _ => true
  | .lui _ _ | .auipc _ _ | .add _ _ _ | .addi _ _ _ | .sub _ _ _ | .mul _ _ _ | .mulh _ _ _ | .mulhsu _ _ _
  | .mulhu _ _ _ | .div _ _ _ | .divu _ _ _ | .rem _ _ _ | .remu _ _ _ | .xor _ _ _ | .xori _ _ _ | .or _ _ _
  | .ori _ _ _ | .and _ _ _ | .andi _ _ _ | .sll _ _ _ | .slli _ _ _ | .srl _ _ _ | .srli _ _ _ | .sra _ _ _
  | .srai _ _ _ | .slt _ _ _ | .slti _ _ _ | .sltiu _ _ _ | .sltu _ _ _ | .lb _ _ _ | .lh _ _ _
  | .lbu _ _ _ | .lhu _ _ _ | .lw _ _ _ | .sb _ _ _ | .sh _ _ _ | .sw _ _ _ => false

/-- The instruction formats (R61); `iShift` is the shift form of format I (R69). -/
inductive Format where
  | r
  | i
  | iShift
  | s
  | b
  | u
  | j
  deriving DecidableEq, Repr

/-- Each instruction's format (R61, R63; the instructions listed with each immediate in R64 to R69). -/
def Instr.format : Instr → Format
  | .lui _ _ | .auipc _ _ => .u
  | .jal _ _ => .j
  | .add _ _ _ | .sub _ _ _ | .mul _ _ _ | .mulh _ _ _ | .mulhsu _ _ _ | .mulhu _ _ _
  | .div _ _ _ | .divu _ _ _ | .rem _ _ _ | .remu _ _ _
  | .xor _ _ _ | .or _ _ _ | .and _ _ _ | .sll _ _ _ | .srl _ _ _ | .sra _ _ _
  | .slt _ _ _ | .sltu _ _ _ => .r
  | .addi _ _ _ | .xori _ _ _ | .ori _ _ _ | .andi _ _ _ | .slti _ _ _ | .sltiu _ _ _
  | .jalr _ _ _ | .lb _ _ _ | .lh _ _ _ | .lbu _ _ _ | .lhu _ _ _ | .lw _ _ _ => .i
  | .slli _ _ _ | .srli _ _ _ | .srai _ _ _ => .iShift
  | .beq _ _ _ | .bne _ _ _ | .blt _ _ _ | .bge _ _ _ | .bltu _ _ _ | .bgeu _ _ _ => .b
  | .sb _ _ _ | .sh _ _ _ | .sw _ _ _ => .s

end Sys2Proof
end

