-- ==== Sys2Proof/Safety.lean ====
section
/-! DEFINITION. What a good state is and the vocabulary claims are stated in: what an instruction writes and leaves
unchanged, the groups of instructions of one shape, and who may raise which fault. -/

namespace Sys2Proof.Machine

/-! ### Good states -/

/-- The invariant of the machine: `M` in its canonical form and inside `MEM_VALID` and outside the image (R38, R44, R232),
slot 0 of the registers 0 (R11), `pc` and `END_PC` multiples of 4 (R15, R236), and an image of R43's form. -/
structure State.Inv (s : State) : Prop where
  mem_wf : s.mem.wf
  mem_valid : ∀ c ∈ s.mem, s.inMemValid c.1 = true
  x_zero : s.x[0] = 0#32
  pc_aligned : s.pc.toNat % 4 = 0
  endPc_aligned : s.endPc.toNat % 4 = 0
  image_wf : s.image.wf

/-! ### Effects and frames -/

/-- The launch parameters are those of `s`. -/
def SameLaunch (s t : State) : Prop :=
  t.image = s.image ∧ t.endPc = s.endPc ∧ t.memValid = s.memValid ∧ t.divCorner = s.divCorner

/-- Every register reads as in `s`. -/
def SameRegs (s t : State) : Prop := ∀ r, t.readReg r = s.readReg r

/-- Every byte of memory, with or without a value, is as in `s`. -/
def SameMem (s t : State) : Prop := ∀ a, t.mem.read a = s.mem.read a

/-- Everything but the registers, `pc` and memory is as in `s`: an instruction touches neither `status` nor the step
count nor the launch parameters. -/
def SameRest (s t : State) : Prop := t.status = s.status ∧ t.steps = s.steps ∧ SameLaunch s t

/-- The registers of `t` are those of `s` after `x[rd] <- v`: `x[0]` reads 0 whatever `rd` is (R11). -/
def RegsAfter (s t : State) (rd : RegIdx) (v : Word) : Prop :=
  ∀ r, t.readReg r = if r = 0 then 0#32 else if r = rd then v else s.readReg r

/-- `t` is `s` after `x[rd] <- v; pc <- pc + 4` and nothing else (R8, R14, R16). -/
def WritesReg (s t : State) (rd : RegIdx) (v : Word) : Prop :=
  RegsAfter s t rd v ∧ t.pc = s.pc + 4#32 ∧ SameMem s t ∧ SameRest s t

/-- `t` is `s` after `pc <- target` and nothing else. -/
def OnlyPc (s t : State) (target : Word) : Prop := t.pc = target ∧ SameRegs s t ∧ SameMem s t ∧ SameRest s t

/-- Applies a change of state to a next state. -/
def mapNext (f : State → State) (o : Result) : Result :=
  match o with
  | .next t => .next (f t)
  | .fault e => .fault e
  | .refused r => .refused r

/-- The whole step as R234 writes it, a function of the state that also sets `status` when a fault is raised (R200). -/
def settledStep (s : State) : State := s.settle (step s)

/-! ### Groups of instructions of one shape -/

/-- The six branches (R177). -/
inductive BranchKind where
  | beq
  | bne
  | blt
  | bge
  | bltu
  | bgeu
  deriving DecidableEq, Repr

/-- The branch instruction of a kind. -/
def BranchKind.instr : BranchKind → RegIdx → RegIdx → BitVec 13 → Instr
  | .beq => .beq
  | .bne => .bne
  | .blt => .blt
  | .bge => .bge
  | .bltu => .bltu
  | .bgeu => .bgeu

/-- `cond(a, b)` of R177's table. -/
def BranchKind.cond : BranchKind → Word → Word → Prop
  | .beq, a, b => a = b
  | .bne, a, b => a ≠ b
  | .blt, a, b => s32 a < s32 b
  | .bge, a, b => s32 a ≥ s32 b
  | .bltu, a, b => u32 a < u32 b
  | .bgeu, a, b => u32 a ≥ u32 b

/-- The five loads (R185). -/
inductive LoadKind where
  | lb
  | lh
  | lbu
  | lhu
  | lw
  deriving DecidableEq, Repr

/-- The load instruction of a kind. -/
def LoadKind.instr : LoadKind → RegIdx → RegIdx → BitVec 12 → Instr
  | .lb => .lb
  | .lh => .lh
  | .lbu => .lbu
  | .lhu => .lhu
  | .lw => .lw

/-- How many bytes a load moves (R31). -/
def LoadKind.width : LoadKind → Width
  | .lb | .lbu => .byte
  | .lh | .lhu => .half
  | .lw => .word

/-- Whether a load extends with the sign (R31). -/
def LoadKind.signed : LoadKind → Bool
  | .lb | .lh | .lw => true
  | .lbu | .lhu => false

/-- The three stores (R193). -/
inductive StoreKind where
  | sb
  | sh
  | sw
  deriving DecidableEq, Repr

/-- The store instruction of a kind, the data register first. -/
def StoreKind.instr : StoreKind → RegIdx → RegIdx → BitVec 12 → Instr
  | .sb => .sb
  | .sh => .sh
  | .sw => .sw

/-- How many bytes a store moves (R31). -/
def StoreKind.width : StoreKind → Width
  | .sb => .byte
  | .sh => .half
  | .sw => .word

/-- The memory access an instruction makes: whether it stores, its width, base register and offset (R31). -/
def accessOf : Instr → Option (Bool × Width × RegIdx × BitVec 12)
  | .lb _ rs1 offset | .lbu _ rs1 offset => some (false, .byte, rs1, offset)
  | .lh _ rs1 offset | .lhu _ rs1 offset => some (false, .half, rs1, offset)
  | .lw _ rs1 offset => some (false, .word, rs1, offset)
  | .sb _ rs1 offset => some (true, .byte, rs1, offset)
  | .sh _ rs1 offset => some (true, .half, rs1, offset)
  | .sw _ rs1 offset => some (true, .word, rs1, offset)
  | .lui _ _ | .auipc _ _ | .add _ _ _ | .addi _ _ _ | .sub _ _ _ | .mul _ _ _ | .mulh _ _ _ | .mulhsu _ _ _
  | .mulhu _ _ _ | .div _ _ _ | .divu _ _ _ | .rem _ _ _ | .remu _ _ _ | .xor _ _ _ | .xori _ _ _ | .or _ _ _
  | .ori _ _ _ | .and _ _ _ | .andi _ _ _ | .sll _ _ _ | .slli _ _ _ | .srl _ _ _ | .srli _ _ _ | .sra _ _ _
  | .srai _ _ _ | .slt _ _ _ | .slti _ _ _ | .sltiu _ _ _ | .sltu _ _ _ | .jal _ _ | .jalr _ _ _
  | .beq _ _ _ | .bne _ _ _ | .blt _ _ _ | .bge _ _ _ | .bltu _ _ _ | .bgeu _ _ _ => none

/-- Whether an instruction stores to the byte at address `a`: the bytes of its width from its effective address on. -/
def storesTo (i : Instr) (s : State) (a : Nat) : Prop :=
  match accessOf i with
  | some (true, w, rs1, offset) => (effAddr s rs1 offset).toNat ≤ a ∧ a < (effAddr s rs1 offset).toNat + w.bytes
  | some (false, _, _, _) => False
  | none => False

/-! ### Accesses -/

/-- R32 and R33 steps 1 to 3 all pass: aligned, and every byte in `MEM_VALID` (which lies outside the image). -/
def AccessAllowed (s : State) (addr : Word) (w : Width) : Prop :=
  addr.toNat % w.bytes = 0 ∧ ∀ k < w.bytes, s.inMemValid (addr.toNat + k) = true

/-- The bytes from `addr` on hold `v`, the least significant at the lowest address (R34). -/
def HoldsLE (s : State) (addr : Word) (w : Width) (v : BitVec w.bits) : Prop :=
  ∀ k < w.bytes, s.mem.read (addr.toNat + k) = some (v.extractLsb' (8 * k) 8)

/-- Which instruction may raise which fault (R201): the fetch and decode faults are no instruction's own. -/
def mayRaise (i : Instr) (s : State) : Fault → Prop
  | .misalignedFetch target => i.isTransfer = true ∧ target.toNat % 4 ≠ 0
  | .fetchAccessFault _ => False
  | .illegalInstruction _ => False
  | .misalignedAccess addr => ∃ st w rs1 off, accessOf i = some (st, w, rs1, off) ∧ addr = effAddr s rs1 off ∧
      addr.toNat % w.bytes ≠ 0
  | .imageAccess addr => ∃ st w rs1 off, accessOf i = some (st, w, rs1, off) ∧ addr = effAddr s rs1 off ∧
      ∃ k < w.bytes, s.image.contains (addr.toNat + k) = true
  | .accessFault addr => ∃ st w rs1 off, accessOf i = some (st, w, rs1, off) ∧ addr = effAddr s rs1 off ∧
      ∃ k < w.bytes, s.inMemValid (addr.toNat + k) = false
  | .unwrittenRead addr => ∃ w rs1 off, accessOf i = some (false, w, rs1, off) ∧
      (∃ k < w.bytes, addr.toNat = (effAddr s rs1 off).toNat + k) ∧ s.mem.read addr.toNat = none

end Sys2Proof.Machine
end

