-- ==== Sys2Proof/Certificates/Slice0/Obligations.lean ====
section
/-! DEFINITION. The statements for the provers. Each docstring names the rules of spec/ it rests on; OBLIGATIONS.json lists
them with their words. A completion or frame is stated with the predicates of Safety.lean (`WritesReg`, `OnlyPc`, `RegsAfter`,
`SameRegs`, `SameMem`, `SameRest`). -/

open Sys2Proof Sys2Proof.Machine

/-- Sample words of every format decode to the instructions the spec lists for them (95_test_vectors.md section 2, 30_encoding.md section 5). -/
def Obligations.SampleWordsDecode : Prop :=
  decode 0x123452B7#32 = .ok (.lui 5 0x12345#20) ∧
  decode 0x002081B3#32 = .ok (.add 3 1 2) ∧
  decode 0x80008093#32 = .ok (.addi 1 1 (-2048)) ∧
  decode 0x41F0D193#32 = .ok (.srai 3 1 31#5) ∧
  decode 0xFF9FF06F#32 = .ok (.jal 0 (-8)) ∧
  decode 0x001000EF#32 = .ok (.jal 1 2048#21) ∧
  decode 0xFFC080E7#32 = .ok (.jalr 1 1 (-4)) ∧
  decode 0xFE011CE3#32 = .ok (.bne 2 0 (-8)) ∧
  decode 0xFFC0A183#32 = .ok (.lw 3 1 (-4)) ∧
  decode 0xFE20AE23#32 = .ok (.sw 2 1 (-4)) ∧
  decode 0x02009193#32 = .error (.illegalInstruction 0x02009193#32) ∧
  decode 0x00000073#32 = .error (.illegalInstruction 0x00000073#32)

/-- Decoding the word of any well-formed instruction gives that instruction back (30_encoding.md sections 2 to 5, opcode_table.json). -/
def Obligations.DecodeEncodeRoundTrip : Prop :=
  ∀ i : Instr, i.wellFormed = true → decode (encode i) = .ok i

/-- Encoding what a word decodes to gives the word back, and it is well formed (30_encoding.md sections 2 to 5). -/
def Obligations.EncodeDecodeRoundTrip : Prop :=
  ∀ (w : Word) (i : Instr), decode w = .ok i → i.wellFormed = true ∧ encode i = w

/-- The decoder by fields and the opcode table by mask and match select the same instruction (30_encoding.md section 5, 70_reset_and_hazards.md section 3, opcode_table.json). -/
def Obligations.DecodeFollowsOpcodeTable : Prop :=
  ∀ w : Word,
    (∀ i, decode w = .ok i → ∃ r ∈ opcodeTable, r.matchesWord w = true ∧ r.mnemonic = i.mnemonic) ∧
    (∀ r ∈ opcodeTable, r.matchesWord w = true → ∃ i, decode w = .ok i ∧ i.mnemonic = r.mnemonic)

/-- At most one row of the opcode table matches any word (70_reset_and_hazards.md section 3). -/
def Obligations.OpcodeRowsDisjoint : Prop :=
  ∀ w : Word, ∀ r ∈ opcodeTable, ∀ r' ∈ opcodeTable, r.matchesWord w = true → r'.matchesWord w = true → r = r'

/-- Which words are illegal encodings, and that executing one raises IllegalInstruction and writes nothing (R75, R76). -/
def Obligations.IllegalEncodingsFault : Prop :=
  ∀ w : Word,
    ((∀ r ∈ opcodeTable, r.matchesWord w = false) ↔
      (opcodeField w = 0b0110011#7 ∧ funct7Field w ≠ 0b0000000#7 ∧ funct7Field w ≠ 0b0100000#7 ∧
        funct7Field w ≠ 0b0000001#7) ∨
      (opcodeField w = 0b0110011#7 ∧ funct7Field w = 0b0100000#7 ∧ funct3Field w ≠ 0b000#3 ∧ funct3Field w ≠ 0b101#3) ∨
      (opcodeField w = 0b0010011#7 ∧ funct3Field w = 0b001#3 ∧ funct7Field w ≠ 0b0000000#7) ∨
      (opcodeField w = 0b0010011#7 ∧ funct3Field w = 0b101#3 ∧ funct7Field w ≠ 0b0000000#7 ∧
        funct7Field w ≠ 0b0100000#7) ∨
      (opcodeField w = 0b0000011#7 ∧ funct3Field w ∈ [0b011#3, 0b110#3, 0b111#3]) ∨
      (opcodeField w = 0b0100011#7 ∧ funct3Field w ∈ [0b011#3, 0b100#3, 0b101#3, 0b110#3, 0b111#3]) ∨
      (opcodeField w = 0b1100011#7 ∧ funct3Field w ∈ [0b010#3, 0b011#3]) ∨
      (opcodeField w = 0b1100111#7 ∧ funct3Field w ≠ 0b000#3) ∨
      opcodeField w ∉ [0b0000011#7, 0b0010011#7, 0b0010111#7, 0b0100011#7, 0b0110011#7, 0b0110111#7, 0b1100011#7,
        0b1100111#7, 0b1101111#7]) ∧
    ((∀ r ∈ opcodeTable, r.matchesWord w = false) → ∀ s : State, s.status = .running → s.pc ≠ s.endPc →
      fetch s = .ok w → step s = .fault (.illegalInstruction w) ∧
        settledStep s = s.withStatus (.faulted (.illegalInstruction w)))

/-- Which instruction bit supplies each of the 32 immediate bits, and the ranges, for formats I, S, B, U and J (R64, R65, R66, R67, R68). -/
def Obligations.ImmediatesOfTheFormats : Prop :=
  ∀ (w : Word) (i : Instr) (v : Word), decode w = .ok i → immediate32 i = some v →
    (i.format = .i →
      (∀ k < 32, v.getLsbD k = if k < 11 then w.getLsbD (20 + k) else w.getLsbD 31) ∧
      -2048 ≤ s32 v ∧ s32 v ≤ 2047) ∧
    (i.format = .s →
      (∀ k < 32, v.getLsbD k =
        if k < 5 then w.getLsbD (7 + k) else if k < 11 then w.getLsbD (20 + k) else w.getLsbD 31) ∧
      -2048 ≤ s32 v ∧ s32 v ≤ 2047) ∧
    (i.format = .b →
      (∀ k < 32, v.getLsbD k =
        if k = 0 then false else if k < 5 then w.getLsbD (7 + k) else if k < 11 then w.getLsbD (20 + k)
        else if k = 11 then w.getLsbD 7 else w.getLsbD 31) ∧
      -4096 ≤ s32 v ∧ s32 v ≤ 4094 ∧ s32 v % 2 = 0) ∧
    (i.format = .u → ∀ k < 32, v.getLsbD k = if k < 12 then false else w.getLsbD k) ∧
    (i.format = .j →
      (∀ k < 32, v.getLsbD k =
        if k = 0 then false else if k < 11 then w.getLsbD (20 + k) else if k = 11 then w.getLsbD 20
        else if k < 20 then w.getLsbD k else w.getLsbD 31) ∧
      -1048576 ≤ s32 v ∧ s32 v ≤ 1048574 ∧ s32 v % 2 = 0)

/-- The bytes of an instruction word, least significant first, decode as the word does (20_memory.md section 7, 20_memory.md section 3). -/
def Obligations.LittleEndianInstructionBytes : Prop :=
  (∀ (w : Word) (rest : List Byte),
    decodeBytes (bytesOfWord w ++ rest) =
      (match decode w with | .ok i => .ok (i, rest) | .error e => .error e)) ∧
  (∀ bs : List Byte, bs.length < 4 → decodeBytes bs = .error .truncated)

/-- x[0] reads 0 always, a write to it is discarded, and an instruction with rd = 0 changes no register (R11). -/
def Obligations.ZeroRegister : Prop :=
  ∀ s : State, s.readReg 0 = 0#32 ∧ (∀ v, s.writeReg 0 v = s) ∧
    (∀ i t, i.dest? = some 0 → exec i s = .next t → SameRegs s t)

/-- A register reads what was last written to it, every other register as before (00_scope.md section 5, 10_state.md section 1). -/
def Obligations.RegisterReadAfterWrite : Prop :=
  ∀ (s : State) (rd : RegIdx) (v : Word), RegsAfter s (s.writeReg rd v) rd v ∧ (s.writeReg rd v).pc = s.pc ∧
    SameMem s (s.writeReg rd v) ∧ SameRest s (s.writeReg rd v)

/-- MemRead: its checks in their order, and the little-endian value (the fault for an unwritten byte is a choice of log 3, its info of log 4) (20_memory.md section 2, notes/assumptions/3.md, notes/assumptions/4.md). -/
def Obligations.MemReadChecksThenValue : Prop :=
  ∀ (s : State) (addr : Word) (w : Width),
    (addr.toNat % w.bytes ≠ 0 → memRead s addr w = .error (.misalignedAccess addr)) ∧
    (addr.toNat % w.bytes = 0 → (∃ k < w.bytes, s.image.contains (addr.toNat + k) = true) →
      memRead s addr w = .error (.imageAccess addr)) ∧
    (addr.toNat % w.bytes = 0 → (∀ k < w.bytes, s.image.contains (addr.toNat + k) = false) →
      (∃ k < w.bytes, s.inMemValid (addr.toNat + k) = false) → memRead s addr w = .error (.accessFault addr)) ∧
    (AccessAllowed s addr w → ∀ k < w.bytes, s.mem.read (addr.toNat + k) = none →
      (∀ j < k, s.mem.read (addr.toNat + j) ≠ none) →
      memRead s addr w = .error (.unwrittenRead (addr + BitVec.ofNat 32 k))) ∧
    (AccessAllowed s addr w → ∀ v, HoldsLE s addr w v → memRead s addr w = .ok v)

/-- MemWrite: its checks in their order, then the bytes, least significant first, and no other byte (R33). -/
def Obligations.MemWriteChecksThenBytes : Prop :=
  ∀ (s : State) (addr : Word) (w : Width) (v : Word),
    (addr.toNat % w.bytes ≠ 0 → memWrite s addr w v = .error (.misalignedAccess addr)) ∧
    (addr.toNat % w.bytes = 0 → (∃ k < w.bytes, s.image.contains (addr.toNat + k) = true) →
      memWrite s addr w v = .error (.imageAccess addr)) ∧
    (addr.toNat % w.bytes = 0 → (∀ k < w.bytes, s.image.contains (addr.toNat + k) = false) →
      (∃ k < w.bytes, s.inMemValid (addr.toNat + k) = false) → memWrite s addr w v = .error (.accessFault addr)) ∧
    (AccessAllowed s addr w → ∃ m, memWrite s addr w v = .ok m ∧
      (∀ i < w.bytes, m.read (addr.toNat + i) = some (v.extractLsb' (8 * i) 8)) ∧
      (∀ a, (a < addr.toNat ∨ addr.toNat + w.bytes ≤ a) → m.read a = s.mem.read a))

/-- A narrower read sees the bytes a wider write left, and a word read is the concatenation of four bytes (20_memory.md section 3). -/
def Obligations.MixedWidthReads : Prop :=
  (∀ (s : State) (a v : Word) (m : Memory), memWrite s a .word v = .ok m →
    (∀ k < 4, memRead (s.withMem m) (a + BitVec.ofNat 32 k) .byte = .ok (v.extractLsb' (8 * k) 8)) ∧
    memRead (s.withMem m) a .half = .ok (v.extractLsb' 0 16) ∧
    memRead (s.withMem m) (a + 2#32) .half = .ok (v.extractLsb' 16 16)) ∧
  (∀ (s : State) (a : Word) (b0 b1 b2 b3 : Byte), AccessAllowed s a .word → s.mem.read a.toNat = some b0 →
    s.mem.read (a.toNat + 1) = some b1 → s.mem.read (a.toNat + 2) = some b2 → s.mem.read (a.toNat + 3) = some b3 →
    memRead s a .word = .ok (b3 ++ b2 ++ b1 ++ b0 : BitVec 32))

/-- The effective address is the base register plus the sign-extended offset modulo 2^32 (20_memory.md section 1). -/
def Obligations.EffectiveAddress : Prop :=
  ∀ (s : State) (rs1 : RegIdx) (offset : BitVec 12),
    effAddr s rs1 offset = to32 ((u32 (s.readReg rs1) : Int) + offset.toInt)

/-- LUI and AUIPC complete in every state: result, pc and frame (40_load_constant.md). -/
def Obligations.LoadConstantResults : Prop :=
  ∀ (s : State) (rd : RegIdx) (imm20 : BitVec 20),
    (∃ t, exec (.lui rd imm20) s = .next t ∧ WritesReg s t rd (BitVec.ofNat 32 (imm20.toNat * 2 ^ 12))) ∧
    (∃ t, exec (.auipc rd imm20) s = .next t ∧ WritesReg s t rd (BitVec.ofNat 32 (u32 s.pc + imm20.toNat * 2 ^ 12)))

/-- ADD, ADDI and SUB complete in every state with the exact result modulo 2^32: result, pc and frame (41_arithmetic.md sections 1 and 2). -/
def Obligations.AddSubResults : Prop :=
  ∀ (s : State) (rd rs1 rs2 : RegIdx) (imm : BitVec 12),
    (∃ t, exec (.add rd rs1 rs2) s = .next t ∧
      WritesReg s t rd (BitVec.ofNat 32 (u32 (s.readReg rs1) + u32 (s.readReg rs2)))) ∧
    (∃ t, exec (.addi rd rs1 imm) s = .next t ∧ WritesReg s t rd (to32 (s32 (s.readReg rs1) + imm.toInt))) ∧
    (∃ t, exec (.sub rd rs1 rs2) s = .next t ∧
      WritesReg s t rd (to32 (s32 (s.readReg rs1) - s32 (s.readReg rs2))))

/-- MUL, MULH, MULHSU and MULHU complete in every state: low or high half of the exact product, pc and frame (41_arithmetic.md sections 1 and 3). -/
def Obligations.MultiplyResults : Prop :=
  ∀ (s : State) (rd rs1 rs2 : RegIdx),
    (∃ t, exec (.mul rd rs1 rs2) s = .next t ∧
      WritesReg s t rd (BitVec.ofNat 32 (u32 (s.readReg rs1) * u32 (s.readReg rs2))) ∧
      WritesReg s t rd (to32 (s32 (s.readReg rs1) * s32 (s.readReg rs2)))) ∧
    (∃ t, exec (.mulh rd rs1 rs2) s = .next t ∧
      WritesReg s t rd (to32 (s32 (s.readReg rs1) * s32 (s.readReg rs2) / 2 ^ 32))) ∧
    (∃ t, exec (.mulhsu rd rs1 rs2) s = .next t ∧
      WritesReg s t rd (to32 (s32 (s.readReg rs1) * (u32 (s.readReg rs2) : Int) / 2 ^ 32))) ∧
    (∃ t, exec (.mulhu rd rs1 rs2) s = .next t ∧
      WritesReg s t rd (BitVec.ofNat 32 (u32 (s.readReg rs1) * u32 (s.readReg rs2) / 2 ^ 32)))

/-- DIV and REM complete away from the corners with the quotient rounded toward zero and its remainder (41_arithmetic.md sections 1 and 4). -/
def Obligations.SignedDivisionResults : Prop :=
  ∀ (s : State) (rd rs1 rs2 : RegIdx), s.readReg rs2 ≠ 0#32 →
    ¬ (s.readReg rs1 = 0x80000000#32 ∧ s.readReg rs2 = 0xFFFFFFFF#32) →
    ∃ q r : Int, s32 (s.readReg rs1) = q * s32 (s.readReg rs2) + r ∧ |r| < |s32 (s.readReg rs2)| ∧
      (r = 0 ∨ (0 < r ↔ 0 < s32 (s.readReg rs1))) ∧ s32 (to32 q) = q ∧ s32 (to32 r) = r ∧
      (∃ t, exec (.div rd rs1 rs2) s = .next t ∧ WritesReg s t rd (to32 q)) ∧
      (∃ t, exec (.rem rd rs1 rs2) s = .next t ∧ WritesReg s t rd (to32 r))

/-- DIVU and REMU complete for every divisor that is not 0, with the floor quotient and its remainder (41_arithmetic.md sections 1 and 4). -/
def Obligations.UnsignedDivisionResults : Prop :=
  ∀ (s : State) (rd rs1 rs2 : RegIdx), s.readReg rs2 ≠ 0#32 →
    ∃ q r : Nat, u32 (s.readReg rs1) = q * u32 (s.readReg rs2) + r ∧ r < u32 (s.readReg rs2) ∧
      (∃ t, exec (.divu rd rs1 rs2) s = .next t ∧ WritesReg s t rd (BitVec.ofNat 32 q)) ∧
      (∃ t, exec (.remu rd rs1 rs2) s = .next t ∧ WritesReg s t rd (BitVec.ofNat 32 r))

/-- The division corners under the default DIV_CORNER (the RISC-V table, PRESUMED by log 12): values and no fault (41_arithmetic.md section 1, notes/assumptions/12.md). -/
def Obligations.DivisionCornersDefault : Prop :=
  ∀ (s : State) (rd rs1 rs2 : RegIdx), s.divCorner = .riscvM →
    (s.readReg rs2 = 0#32 →
      (∃ t, exec (.div rd rs1 rs2) s = .next t ∧ WritesReg s t rd 0xFFFFFFFF#32) ∧
      (∃ t, exec (.divu rd rs1 rs2) s = .next t ∧ WritesReg s t rd 0xFFFFFFFF#32) ∧
      (∃ t, exec (.rem rd rs1 rs2) s = .next t ∧ WritesReg s t rd (s.readReg rs1)) ∧
      (∃ t, exec (.remu rd rs1 rs2) s = .next t ∧ WritesReg s t rd (s.readReg rs1))) ∧
    (s.readReg rs1 = 0x80000000#32 → s.readReg rs2 = 0xFFFFFFFF#32 →
      (∃ t, exec (.div rd rs1 rs2) s = .next t ∧ WritesReg s t rd 0x80000000#32) ∧
      (∃ t, exec (.rem rd rs1 rs2) s = .next t ∧ WritesReg s t rd 0#32))

/-- DIV, DIVU, REM and REMU complete on all operands and under either DIV_CORNER, writing rd and pc only (41_arithmetic.md sections 1 and 4, 60_exceptions.md section 2). -/
def Obligations.DivisionNeverFaults : Prop :=
  ∀ (s : State) (rd rs1 rs2 : RegIdx), ∀ i ∈ [Instr.div rd rs1 rs2, .divu rd rs1 rs2, .rem rd rs1 rs2, .remu rd rs1 rs2],
    ∃ t v, exec i s = .next t ∧ WritesReg s t rd v

/-- XOR, OR, AND and XORI, ORI, ANDI complete in every state, bit by bit: result, pc and frame (42_boolean_logic.md). -/
def Obligations.BooleanResults : Prop :=
  ∀ (s : State) (rd rs1 rs2 : RegIdx) (imm : BitVec 12),
    (∃ t v, exec (.xor rd rs1 rs2) s = .next t ∧ WritesReg s t rd v ∧
      ∀ k < 32, v.getLsbD k = ((s.readReg rs1).getLsbD k ^^ (s.readReg rs2).getLsbD k)) ∧
    (∃ t v, exec (.or rd rs1 rs2) s = .next t ∧ WritesReg s t rd v ∧
      ∀ k < 32, v.getLsbD k = ((s.readReg rs1).getLsbD k || (s.readReg rs2).getLsbD k)) ∧
    (∃ t v, exec (.and rd rs1 rs2) s = .next t ∧ WritesReg s t rd v ∧
      ∀ k < 32, v.getLsbD k = ((s.readReg rs1).getLsbD k && (s.readReg rs2).getLsbD k)) ∧
    (∃ t v, exec (.xori rd rs1 imm) s = .next t ∧ WritesReg s t rd v ∧
      ∀ k < 32, v.getLsbD k = ((s.readReg rs1).getLsbD k ^^ imm.getLsbD (min k 11))) ∧
    (∃ t v, exec (.ori rd rs1 imm) s = .next t ∧ WritesReg s t rd v ∧
      ∀ k < 32, v.getLsbD k = ((s.readReg rs1).getLsbD k || imm.getLsbD (min k 11))) ∧
    (∃ t v, exec (.andi rd rs1 imm) s = .next t ∧ WritesReg s t rd v ∧
      ∀ k < 32, v.getLsbD k = ((s.readReg rs1).getLsbD k && imm.getLsbD (min k 11)))

/-- The six shifts complete in every state: amount x[rs2] mod 32 or shamt, zero or sign fill, result, pc and frame (R146). -/
def Obligations.ShiftResults : Prop :=
  (∀ (v : Word) (n : Nat), n < 32 →
    (∀ k < 32, (BitVec.ofNat 32 (u32 v * 2 ^ n)).getLsbD k = if k < n then false else v.getLsbD (k - n)) ∧
    (∀ k < 32, (BitVec.ofNat 32 (u32 v / 2 ^ n)).getLsbD k = if k + n < 32 then v.getLsbD (k + n) else false) ∧
    (∀ k < 32, (to32 (s32 v / 2 ^ n)).getLsbD k = if k + n < 32 then v.getLsbD (k + n) else v.getLsbD 31) ∧
    (n = 0 → BitVec.ofNat 32 (u32 v * 2 ^ n) = v ∧ BitVec.ofNat 32 (u32 v / 2 ^ n) = v ∧
      to32 (s32 v / 2 ^ n) = v)) ∧
  (∀ (s : State) (rd rs1 rs2 : RegIdx) (shamt : BitVec 5),
    (∃ t, exec (.sll rd rs1 rs2) s = .next t ∧
      WritesReg s t rd (BitVec.ofNat 32 (u32 (s.readReg rs1) * 2 ^ (u32 (s.readReg rs2) % 32)))) ∧
    (∃ t, exec (.srl rd rs1 rs2) s = .next t ∧
      WritesReg s t rd (BitVec.ofNat 32 (u32 (s.readReg rs1) / 2 ^ (u32 (s.readReg rs2) % 32)))) ∧
    (∃ t, exec (.sra rd rs1 rs2) s = .next t ∧
      WritesReg s t rd (to32 (s32 (s.readReg rs1) / 2 ^ (u32 (s.readReg rs2) % 32)))) ∧
    (∃ t, exec (.slli rd rs1 shamt) s = .next t ∧
      WritesReg s t rd (BitVec.ofNat 32 (u32 (s.readReg rs1) * 2 ^ shamt.toNat))) ∧
    (∃ t, exec (.srli rd rs1 shamt) s = .next t ∧
      WritesReg s t rd (BitVec.ofNat 32 (u32 (s.readReg rs1) / 2 ^ shamt.toNat))) ∧
    (∃ t, exec (.srai rd rs1 shamt) s = .next t ∧
      WritesReg s t rd (to32 (s32 (s.readReg rs1) / 2 ^ shamt.toNat))))

/-- SLT, SLTI, SLTIU and SLTU complete in every state with 1 or 0: result, pc and frame (44_compare.md). -/
def Obligations.CompareResults : Prop :=
  ∀ (s : State) (rd rs1 rs2 : RegIdx) (imm : BitVec 12),
    (∃ t, exec (.slt rd rs1 rs2) s = .next t ∧
      WritesReg s t rd (if s32 (s.readReg rs1) < s32 (s.readReg rs2) then 1#32 else 0#32)) ∧
    (∃ t, exec (.slti rd rs1 imm) s = .next t ∧
      WritesReg s t rd (if s32 (s.readReg rs1) < imm.toInt then 1#32 else 0#32)) ∧
    (∃ t, exec (.sltiu rd rs1 imm) s = .next t ∧
      WritesReg s t rd (if u32 (s.readReg rs1) <
        (if imm.toNat < 2048 then imm.toNat else imm.toNat + 2 ^ 32 - 2 ^ 12) then 1#32 else 0#32)) ∧
    (∃ t, exec (.sltu rd rs1 rs2) s = .next t ∧
      WritesReg s t rd (if u32 (s.readReg rs1) < u32 (s.readReg rs2) then 1#32 else 0#32))

/-- JAL completes when its target is a multiple of 4: link, target and frame (45_jump.md). -/
def Obligations.JalCompletes : Prop :=
  ∀ (s : State) (rd : RegIdx) (offset : BitVec 21), (to32 ((u32 s.pc : Int) + offset.toInt)).toNat % 4 = 0 →
    ∃ t, exec (.jal rd offset) s = .next t ∧ RegsAfter s t rd (BitVec.ofNat 32 (u32 s.pc + 4)) ∧
      t.pc = to32 ((u32 s.pc : Int) + offset.toInt) ∧ SameMem s t ∧ SameRest s t

/-- JALR completes when its target, bit 0 cleared, is a multiple of 4: old base, link, target and frame (45_jump.md). -/
def Obligations.JalrCompletes : Prop :=
  ∀ (s : State) (rd rs1 : RegIdx) (offset : BitVec 12) (target : Word),
    (∀ k < 32, target.getLsbD k =
      if k = 0 then false else (to32 ((u32 (s.readReg rs1) : Int) + offset.toInt)).getLsbD k) →
    target.toNat % 4 = 0 →
    ∃ t, exec (.jalr rd rs1 offset) s = .next t ∧ RegsAfter s t rd (BitVec.ofNat 32 (u32 s.pc + 4)) ∧
      t.pc = target ∧ SameMem s t ∧ SameRest s t

/-- JAL and JALR to a target that is not a multiple of 4 raise MisalignedFetch(target): rd and pc unchanged (R162). -/
def Obligations.MisalignedJumpFaults : Prop :=
  ∀ (s : State) (rd rs1 : RegIdx) (offJ : BitVec 21) (offI : BitVec 12),
    ((jalTarget s offJ).toNat % 4 ≠ 0 →
      exec (.jal rd offJ) s = .fault (.misalignedFetch (jalTarget s offJ)) ∧
      s.settle (exec (.jal rd offJ) s) = s.withStatus (.faulted (.misalignedFetch (jalTarget s offJ)))) ∧
    ((jalrTarget s rs1 offI).toNat % 4 ≠ 0 ↔ (jalrTarget s rs1 offI).getLsbD 1 = true) ∧
    ((jalrTarget s rs1 offI).getLsbD 1 = true →
      exec (.jalr rd rs1 offI) s = .fault (.misalignedFetch (jalrTarget s rs1 offI)) ∧
      s.settle (exec (.jalr rd rs1 offI) s) = s.withStatus (.faulted (.misalignedFetch (jalrTarget s rs1 offI))))

/-- BEQ, BNE, BLT, BGE, BLTU, BGEU complete: taken to an aligned target, or not taken to pc + 4; nothing else changes (46_branch.md). -/
def Obligations.BranchesComplete : Prop :=
  ∀ (s : State) (b : BranchKind) (rs1 rs2 : RegIdx) (offset : BitVec 13),
    (b.cond (s.readReg rs1) (s.readReg rs2) → (to32 ((u32 s.pc : Int) + offset.toInt)).toNat % 4 = 0 →
      ∃ t, exec (b.instr rs1 rs2 offset) s = .next t ∧ OnlyPc s t (to32 ((u32 s.pc : Int) + offset.toInt))) ∧
    (¬ b.cond (s.readReg rs1) (s.readReg rs2) →
      ∃ t, exec (b.instr rs1 rs2 offset) s = .next t ∧ OnlyPc s t (BitVec.ofNat 32 (u32 s.pc + 4)))

/-- A branch faults exactly when it is taken and bit 1 of its offset is 1; untaken it never faults; pc is kept (R176). -/
def Obligations.MisalignedBranchFaults : Prop :=
  ∀ (s : State) (b : BranchKind) (rs1 rs2 : RegIdx) (offset : BitVec 13),
    (b.cond (s.readReg rs1) (s.readReg rs2) → (branchTarget s offset).toNat % 4 ≠ 0 →
      exec (b.instr rs1 rs2 offset) s = .fault (.misalignedFetch (branchTarget s offset)) ∧
      s.settle (exec (b.instr rs1 rs2 offset) s) =
        s.withStatus (.faulted (.misalignedFetch (branchTarget s offset)))) ∧
    (¬ b.cond (s.readReg rs1) (s.readReg rs2) → ∀ f, exec (b.instr rs1 rs2 offset) s ≠ .fault f) ∧
    (s.pc.toNat % 4 = 0 → (b.instr rs1 rs2 offset).wellFormed = true →
      ((∃ f, exec (b.instr rs1 rs2 offset) s = .fault f) ↔
        b.cond (s.readReg rs1) (s.readReg rs2) ∧ offset.getLsbD 1 = true) ∧
      offset.getLsbD 1 = (encode (b.instr rs1 rs2 offset)).getLsbD 8)

/-- Of BEQ and BNE, of BLT and BGE, of BLTU and BGEU, one goes to the target and the other on to pc + 4 (46_branch.md). -/
def Obligations.OppositeBranches : Prop :=
  ∀ (s : State) (rs1 rs2 : RegIdx) (offset : BitVec 13),
    ∀ p ∈ [(BranchKind.beq, BranchKind.bne), (.blt, .bge), (.bltu, .bgeu)],
      (branchTarget s offset).toNat % 4 = 0 →
      ∃ t u, ((exec (p.1.instr rs1 rs2 offset) s = .next t ∧ exec (p.2.instr rs1 rs2 offset) s = .next u) ∨
          (exec (p.2.instr rs1 rs2 offset) s = .next t ∧ exec (p.1.instr rs1 rs2 offset) s = .next u)) ∧
        t.pc = branchTarget s offset ∧ u.pc = s.pc + 4#32

/-- LB, LH, LBU, LHU, LW complete when the access is allowed and its bytes have values: value, pc and frame (47_load.md, 20_memory.md sections 1 to 3). -/
def Obligations.LoadsComplete : Prop :=
  ∀ (s : State) (l : LoadKind) (rd rs1 : RegIdx) (offset : BitVec 12) (v : BitVec l.width.bits),
    AccessAllowed s (effAddr s rs1 offset) l.width → HoldsLE s (effAddr s rs1 offset) l.width v →
    ∃ t, exec (l.instr rd rs1 offset) s = .next t ∧
      WritesReg s t rd (if l.signed then v.signExtend 32 else v.setWidth 32)

/-- A load that may not read raises the first of MisalignedAccess, ImageAccess, AccessFault, UnwrittenRead (a choice of log 3, its info of log 4) and writes nothing (47_load.md, 60_exceptions.md section 2, notes/assumptions/3.md, notes/assumptions/4.md). -/
def Obligations.LoadsFaultInOrder : Prop :=
  ∀ (s : State) (l : LoadKind) (rd rs1 : RegIdx) (offset : BitVec 12) (addr : Word), addr = effAddr s rs1 offset →
    (addr.toNat % l.width.bytes ≠ 0 → exec (l.instr rd rs1 offset) s = .fault (.misalignedAccess addr)) ∧
    (addr.toNat % l.width.bytes = 0 → (∃ k < l.width.bytes, s.image.contains (addr.toNat + k) = true) →
      exec (l.instr rd rs1 offset) s = .fault (.imageAccess addr)) ∧
    (addr.toNat % l.width.bytes = 0 → (∀ k < l.width.bytes, s.image.contains (addr.toNat + k) = false) →
      (∃ k < l.width.bytes, s.inMemValid (addr.toNat + k) = false) →
      exec (l.instr rd rs1 offset) s = .fault (.accessFault addr)) ∧
    (AccessAllowed s addr l.width → (∃ k < l.width.bytes, s.mem.read (addr.toNat + k) = none) →
      ∃ k < l.width.bytes, s.mem.read (addr.toNat + k) = none ∧
        exec (l.instr rd rs1 offset) s = .fault (.unwrittenRead (addr + BitVec.ofNat 32 k))) ∧
    (∀ f, exec (l.instr rd rs1 offset) s = .fault f →
      s.settle (exec (l.instr rd rs1 offset) s) = s.withStatus (.faulted f))

/-- SB, SH, SW complete when the access is allowed: the low bytes of x[rs2], little-endian, and the frame (48_store.md, 20_memory.md sections 1 to 3). -/
def Obligations.StoresComplete : Prop :=
  ∀ (s : State) (k : StoreKind) (rs2 rs1 : RegIdx) (offset : BitVec 12),
    AccessAllowed s (effAddr s rs1 offset) k.width →
    ∃ t, exec (k.instr rs2 rs1 offset) s = .next t ∧
      (∀ j < k.width.bytes, t.mem.read ((effAddr s rs1 offset).toNat + j) =
        some ((s.readReg rs2).extractLsb' (8 * j) 8)) ∧
      (∀ a, (a < (effAddr s rs1 offset).toNat ∨ (effAddr s rs1 offset).toNat + k.width.bytes ≤ a) →
        t.mem.read a = s.mem.read a) ∧
      SameRegs s t ∧ t.pc = s.pc + 4#32 ∧ SameRest s t

/-- A store that may not write raises the first of MisalignedAccess, ImageAccess, AccessFault and writes nothing (48_store.md, 60_exceptions.md section 2). -/
def Obligations.StoresFaultInOrder : Prop :=
  ∀ (s : State) (k : StoreKind) (rs2 rs1 : RegIdx) (offset : BitVec 12) (addr : Word), addr = effAddr s rs1 offset →
    (addr.toNat % k.width.bytes ≠ 0 → exec (k.instr rs2 rs1 offset) s = .fault (.misalignedAccess addr)) ∧
    (addr.toNat % k.width.bytes = 0 → (∃ j < k.width.bytes, s.image.contains (addr.toNat + j) = true) →
      exec (k.instr rs2 rs1 offset) s = .fault (.imageAccess addr)) ∧
    (addr.toNat % k.width.bytes = 0 → (∀ j < k.width.bytes, s.image.contains (addr.toNat + j) = false) →
      (∃ j < k.width.bytes, s.inMemValid (addr.toNat + j) = false) →
      exec (k.instr rs2 rs1 offset) s = .fault (.accessFault addr)) ∧
    (∀ f, exec (k.instr rs2 rs1 offset) s = .fault f →
      s.settle (exec (k.instr rs2 rs1 offset) s) = s.withStatus (.faulted f))

/-- A load of the bytes just stored completes and gives the stored value (20_memory.md section 6). -/
def Obligations.StoreThenLoad : Prop :=
  ∀ (s t : State) (rd rs1 rs2 : RegIdx) (offset : BitVec 12),
    (exec (.sw rs2 rs1 offset) s = .next t →
      ∃ u, exec (.lw rd rs1 offset) t = .next u ∧ WritesReg t u rd (s.readReg rs2)) ∧
    (exec (.sh rs2 rs1 offset) s = .next t →
      (∃ u, exec (.lh rd rs1 offset) t = .next u ∧
        WritesReg t u rd (((s.readReg rs2).extractLsb' 0 16).signExtend 32)) ∧
      (∃ u, exec (.lhu rd rs1 offset) t = .next u ∧
        WritesReg t u rd (((s.readReg rs2).extractLsb' 0 16).setWidth 32))) ∧
    (exec (.sb rs2 rs1 offset) s = .next t →
      (∃ u, exec (.lb rd rs1 offset) t = .next u ∧
        WritesReg t u rd (((s.readReg rs2).extractLsb' 0 8).signExtend 32)) ∧
      (∃ u, exec (.lbu rd rs1 offset) t = .next u ∧
        WritesReg t u rd (((s.readReg rs2).extractLsb' 0 8).setWidth 32)))

/-- No instruction has a side effect on any state other than its rd, pc and, for stores, the bytes it names (10_state.md sections 1 and 3). -/
def Obligations.InstructionFrame : Prop :=
  ∀ (i : Instr) (s t : State), exec i s = .next t →
    (∀ r, i.dest? ≠ some r → t.readReg r = s.readReg r) ∧
    (∀ a, ¬ storesTo i s a → t.mem.read a = s.mem.read a) ∧ SameRest s t

/-- Every instruction but JAL, JALR and the branches ends with pc + 4, modulo 2^32 (10_state.md section 2). -/
def Obligations.OnlyTransfersWritePc : Prop :=
  ∀ (i : Instr) (s t : State), i.isTransfer = false → exec i s = .next t → t.pc = BitVec.ofNat 32 (u32 s.pc + 4)

/-- No instruction reads or writes a register it does not name, and none reads the old value of an rd it does not read (10_state.md section 1). -/
def Obligations.UnnamedRegistersDoNotMatter : Prop :=
  ∀ (i : Instr) (s : State) (r : RegIdx) (v : Word), r ∉ i.sources →
    (i.dest? ≠ some r → exec i (s.writeReg r v) = mapNext (fun t => t.writeReg r v) (exec i s)) ∧
    (i.dest? = some r → exec i (s.writeReg r v) = exec i s)

/-- An instruction raises only the faults listed for it, and each only under its condition (UnwrittenRead for bytes only: log 2, 3 and 4) (60_exceptions.md sections 1 and 2, notes/assumptions/2.md, notes/assumptions/3.md, notes/assumptions/4.md). -/
def Obligations.FaultsAreTheOnesListed : Prop :=
  ∀ (i : Instr) (s : State) (f : Fault), exec i s = .fault f → mayRaise i s f

/-- Every instruction has a meaning: no instruction and no step is ever refused (70_reset_and_hazards.md section 3, 93_implementation_defined.md part 1). -/
def Obligations.NothingIsRefused : Prop :=
  (∀ (i : Instr) (s : State) (r : Refusal), exec i s ≠ .refused r) ∧ (∀ (s : State) (r : Refusal), step s ≠ .refused r)

/-- The fetch: MisalignedFetch, then FetchAccessFault, then the word of the image at pc (20_memory.md section 7). -/
def Obligations.FetchReadsTheImage : Prop :=
  ∀ s : State, s.image.wf →
    (s.pc.toNat % 4 ≠ 0 → fetch s = .error (.misalignedFetch s.pc)) ∧
    (s.pc.toNat % 4 = 0 → s.image.contains s.pc.toNat = false → fetch s = .error (.fetchAccessFault s.pc)) ∧
    (s.pc.toNat % 4 = 0 → s.image.contains s.pc.toNat = true →
      ∃ w, s.image.words[(s.pc.toNat - s.image.base.toNat) / 4]? = some w ∧ fetch s = .ok w)

/-- A step of the running machine is exec of the decoded instruction, with the step counted (70_reset_and_hazards.md section 3). -/
def Obligations.StepRunsTheDecodedInstruction : Prop :=
  ∀ (s : State) (w : Word) (i : Instr), s.status = .running → s.pc ≠ s.endPc → fetch s = .ok w → decode w = .ok i →
    (∀ t, exec i s = .next t → step s = .next t.countStep) ∧ (∀ f, exec i s = .fault f → step s = .fault f)

/-- When the fetch of the running machine faults, the step is that fault and only status changes (60_exceptions.md section 2). -/
def Obligations.StepFetchFaults : Prop :=
  ∀ (s : State) (f : Fault), s.status = .running → s.pc ≠ s.endPc → fetch s = .error f →
    step s = .fault f ∧ settledStep s = s.withStatus (.faulted f)

/-- A step that begins at END_PC ends the run before any fetch, and only status changes (70_reset_and_hazards.md section 5). -/
def Obligations.RunEndsAtEndPc : Prop :=
  ∀ s : State, s.status = .running → s.pc = s.endPc → step s = .next (s.withStatus .ended)

/-- A faulted status never changes and an ended run keeps its state, for any number of steps (a choice of log 10) (10_state.md section 7, notes/assumptions/10.md). -/
def Obligations.RunsThatAreOverStayOver : Prop :=
  ∀ (s : State) (k : Nat),
    (s.status = .ended → Sys2Proof.core.run k s = .next s) ∧
    (∀ f, s.status = .faulted f → Sys2Proof.core.run (k + 1) s = .fault f ∧ settledStep s = s)

/-- A step that faults leaves registers, pc, memory and step count as they were, records the fault, and the next step stays in it (log 9 and 10) (60_exceptions.md section 1, notes/assumptions/9.md, notes/assumptions/10.md). -/
def Obligations.FaultsArePrecise : Prop :=
  ∀ (s : State) (f : Fault), step s = .fault f →
    (settledStep s).status = .faulted f ∧ SameRegs s (settledStep s) ∧ (settledStep s).pc = s.pc ∧
      SameMem s (settledStep s) ∧ (settledStep s).steps = s.steps ∧ SameLaunch s (settledStep s) ∧
      step (settledStep s) = .fault f ∧ settledStep (settledStep s) = settledStep s

/-- The step count goes up by one exactly when an instruction completes (a step of an ended run: log 10) (70_reset_and_hazards.md section 6, notes/assumptions/10.md). -/
def Obligations.StepsCountCompletedInstructions : Prop :=
  ∀ s t : State, step s = .next t →
    (s.status = .running ∧ s.pc ≠ s.endPc → t.steps = s.steps + 1 ∧ t.status = .running) ∧
    (¬ (s.status = .running ∧ s.pc ≠ s.endPc) → t.steps = s.steps)

/-- The image never changes during a run: after any step every address fetches what it fetched before (20_memory.md section 7). -/
def Obligations.StoresNeverReachTheFetch : Prop :=
  ∀ s t : State, step s = .next t → SameLaunch s t ∧ ∀ a : Word, fetch (t.withPc a) = fetch (s.withPc a)

/-- The invariant holds at State.reset (whose pc and image are choices of the model, log 5 and log 6) (10_state.md section 8, notes/assumptions/5.md, notes/assumptions/6.md). -/
def Obligations.InvAtReset : Prop :=
  State.Inv State.reset

/-- Every step keeps the invariant: canonical memory in MEM_VALID and outside the image, x[0] = 0, pc a multiple of 4 (10_state.md sections 1 and 2, 20_memory.md section 5, 45_jump.md, 46_branch.md). -/
def Obligations.StepKeepsInv : Prop :=
  ∀ s t : State, s.Inv → step s = .next t → t.Inv

/-- With pc a multiple of 4 the fetch is never misaligned: only a control transfer raises MisalignedFetch (10_state.md section 2, 45_jump.md, 46_branch.md). -/
def Obligations.InvRulesOutMisalignedFetch : Prop :=
  ∀ (s : State) (target : Word), s.Inv → step s = .fault (.misalignedFetch target) →
    s.status = .faulted (.misalignedFetch target) ∨
    (s.status = .running ∧ target.toNat % 4 ≠ 0 ∧ ∃ w i, fetch s = .ok w ∧ decode w = .ok i ∧ i.isTransfer = true)

/-- Which launches are runs (refusing a bad END_PC, IMAGE or MEM_INIT is deduced, log 21) (70_reset_and_hazards.md sections 1 and 5, 20_memory.md section 7, notes/assumptions/21.md). -/
def Obligations.LaunchAcceptsOrRefuses : Prop :=
  ∀ p : LaunchParams,
    ((∃ s, launch p = .ok s) ↔ p.resetPc.toNat % 4 = 0 ∧ p.endPc.toNat % 4 = 0 ∧ p.image.wf ∧
      ∀ c ∈ p.memInit, c.1 < 2 ^ 32 ∧ (∃ r ∈ p.memValid, r.contains c.1 = true) ∧ p.image.contains c.1 = false) ∧
    (p.resetPc.toNat % 4 ≠ 0 → launch p = .error .badResetPc)

/-- The first state of a launched run: pc, x[0], the registers given or drawn (a drawn value is the choice of the model, log 2), MEM_INIT, status, the invariant (10_state.md section 8, 70_reset_and_hazards.md section 1, notes/assumptions/2.md). -/
def Obligations.LaunchedState : Prop :=
  ∀ (p : LaunchParams) (s : State), launch p = .ok s →
    s.pc = p.resetPc ∧ s.readReg 0 = 0#32 ∧ (∀ r : RegIdx, r ≠ 0 → s.readReg r = p.regs[r.val]) ∧
    s.status = .running ∧ s.steps = 0 ∧
    (∀ c ∈ p.memInit, (∀ d ∈ p.memInit, d.1 = c.1 → d.2 = c.2) → s.mem.read c.1 = some c.2) ∧
    (∀ a, (∀ c ∈ p.memInit, c.1 ≠ a) → s.mem.read a = none) ∧
    s.image = p.image ∧ s.endPc = p.endPc ∧ s.memValid = p.memValid ∧ s.divCorner = p.divCorner ∧ s.Inv

/-- Every state of every launched run has the invariant and the launch parameters of its launch (70_reset_and_hazards.md sections 1 and 3, 20_memory.md sections 5 and 7). -/
def Obligations.LaunchedRunsStayGood : Prop :=
  ∀ (p : LaunchParams) (s t : State) (k : Nat), launch p = .ok s → Sys2Proof.core.run k s = .next t →
    t.Inv ∧ SameLaunch s t ∧ (t.status = .running ∨ t.status = .ended) ∧ t.steps ≤ k

/-- State.reset: x[0] = 0, status running, no byte with a value; its other values are choices of the model (log 2, 5, 6) (10_state.md section 8, notes/assumptions/2.md, notes/assumptions/5.md, notes/assumptions/6.md). -/
def Obligations.ResetState : Prop :=
  State.reset.readReg 0 = 0#32 ∧ State.reset.status = .running ∧ (∀ a, State.reset.mem.read a = none) ∧
    (∀ a < 2 ^ 32, State.reset.inMemValid a = true) ∧ State.reset.steps = 0 ∧ State.reset.image.words = [] ∧
    State.reset.pc = Config.resetPc ∧ State.reset.endPc = Config.resetPc

/-- A word placed at an aligned pc is what the next step fetches and runs (the placing is the device of log 6) (70_reset_and_hazards.md sections 3 and 5, 20_memory.md section 7, notes/assumptions/6.md). -/
def Obligations.PlacedWordIsRun : Prop :=
  ∀ (s : State) (w : Nat) (i : Instr), s.pc.toNat % 4 = 0 → decodeTableWord 32 w = some i →
    step (s.withFetchWord 32 w) = countCompleted (exec i (s.withFetchWord 32 w)) ∧
    SameRegs s (s.withFetchWord 32 w) ∧ SameMem s (s.withFetchWord 32 w) ∧ (s.withFetchWord 32 w).pc = s.pc
end

