-- ==== Sys2Proof/Laws/Decode.lean ====
section
/-! SUPPORT. The fields of an encoded word: each format's encoder puts every field where the decoder reads it
(spec rules R61, R62, R64 to R69). -/

namespace Sys2Proof

@[simp] theorem regBits_toFin (r : RegIdx) : (regBits r).toFin = r := rfl

/-! ### Reading a slice of a concatenation -/

/-- A slice that lies in the low part of a concatenation. -/
theorem extractLsb'_append_low {m n : Nat} (x : BitVec m) (y : BitVec n) (start len : Nat) (h : start + len ≤ n) :
    (x ++ y).extractLsb' start len = y.extractLsb' start len := by
  ext i hi
  simp only [BitVec.getElem_extractLsb', BitVec.getLsbD_append, if_pos (show start + i < n by omega)]

/-- A slice that lies in the high part of a concatenation. -/
theorem extractLsb'_append_high {m n : Nat} (x : BitVec m) (y : BitVec n) (start len : Nat) (h : n ≤ start) :
    (x ++ y).extractLsb' start len = x.extractLsb' (start - n) len := by
  ext i hi
  simp only [BitVec.getElem_extractLsb', BitVec.getLsbD_append, if_neg (show ¬ start + i < n by omega)]
  congr 1; omega

/-- A slice of a slice. -/
theorem extractLsb'_extractLsb' {m : Nat} (x : BitVec m) (s₁ l₁ s₂ l₂ : Nat) (h : s₂ + l₂ ≤ l₁) :
    (x.extractLsb' s₁ l₁).extractLsb' s₂ l₂ = x.extractLsb' (s₁ + s₂) l₂ := by
  ext i hi
  simp only [BitVec.getElem_extractLsb', BitVec.getLsbD_extractLsb', show s₂ + i < l₁ by omega, decide_true,
    Bool.true_and, Nat.add_assoc]

/-- The slice that is the whole. -/
theorem extractLsb'_whole {m : Nat} (x : BitVec m) : x.extractLsb' 0 m = x := by
  ext i hi; simp

/-! ### Format R and the shift form of format I -/

section R
variable (f7 : BitVec 7) (b : BitVec 5) (a : RegIdx) (f3 : BitVec 3) (d : RegIdx) (op : BitVec 7)

@[simp] theorem opcodeField_encR : opcodeField (encR f7 b a f3 d op) = op := by
  show BitVec.extractLsb' 0 7 (f7 ++ b ++ regBits a ++ f3 ++ regBits d ++ op) = _
  rw [extractLsb'_append_low _ _ _ _ (by omega), extractLsb'_whole]

@[simp] theorem rdField_encR : rdField (encR f7 b a f3 d op) = d := by
  show (BitVec.extractLsb' 7 5 (f7 ++ b ++ regBits a ++ f3 ++ regBits d ++ op)).toFin = _
  rw [extractLsb'_append_high _ _ _ _ (by omega), extractLsb'_append_low _ _ _ _ (by omega), extractLsb'_whole]; rfl

@[simp] theorem funct3Field_encR : funct3Field (encR f7 b a f3 d op) = f3 := by
  show BitVec.extractLsb' 12 3 (f7 ++ b ++ regBits a ++ f3 ++ regBits d ++ op) = _
  rw [extractLsb'_append_high _ _ _ _ (by omega), extractLsb'_append_high _ _ _ _ (by omega),
    extractLsb'_append_low _ _ _ _ (by omega), extractLsb'_whole]

@[simp] theorem rs1Field_encR : rs1Field (encR f7 b a f3 d op) = a := by
  show (BitVec.extractLsb' 15 5 (f7 ++ b ++ regBits a ++ f3 ++ regBits d ++ op)).toFin = _
  rw [extractLsb'_append_high _ _ _ _ (by omega), extractLsb'_append_high _ _ _ _ (by omega),
    extractLsb'_append_high _ _ _ _ (by omega), extractLsb'_append_low _ _ _ _ (by omega), extractLsb'_whole]; rfl

@[simp] theorem shamtField_encR : shamtField (encR f7 b a f3 d op) = b := by
  show BitVec.extractLsb' 20 5 (f7 ++ b ++ regBits a ++ f3 ++ regBits d ++ op) = _
  rw [extractLsb'_append_high _ _ _ _ (by omega), extractLsb'_append_high _ _ _ _ (by omega),
    extractLsb'_append_high _ _ _ _ (by omega), extractLsb'_append_high _ _ _ _ (by omega),
    extractLsb'_append_low _ _ _ _ (by omega), extractLsb'_whole]

@[simp] theorem rs2Field_encR (r : RegIdx) : rs2Field (encR f7 (regBits r) a f3 d op) = r := by
  have h := shamtField_encR f7 (regBits r) a f3 d op
  unfold shamtField at h
  rw [rs2Field, h]; rfl

@[simp] theorem funct7Field_encR : funct7Field (encR f7 b a f3 d op) = f7 := by
  show BitVec.extractLsb' 25 7 (f7 ++ b ++ regBits a ++ f3 ++ regBits d ++ op) = _
  rw [extractLsb'_append_high _ _ _ _ (by omega), extractLsb'_append_high _ _ _ _ (by omega),
    extractLsb'_append_high _ _ _ _ (by omega), extractLsb'_append_high _ _ _ _ (by omega),
    extractLsb'_append_high _ _ _ _ (by omega), extractLsb'_whole]

end R

/-! ### Format I -/

section I
variable (imm : BitVec 12) (a : RegIdx) (f3 : BitVec 3) (d : RegIdx) (op : BitVec 7)

@[simp] theorem opcodeField_encI : opcodeField (encI imm a f3 d op) = op := by
  show BitVec.extractLsb' 0 7 (imm ++ regBits a ++ f3 ++ regBits d ++ op) = _
  rw [extractLsb'_append_low _ _ _ _ (by omega), extractLsb'_whole]

@[simp] theorem rdField_encI : rdField (encI imm a f3 d op) = d := by
  show (BitVec.extractLsb' 7 5 (imm ++ regBits a ++ f3 ++ regBits d ++ op)).toFin = _
  rw [extractLsb'_append_high _ _ _ _ (by omega), extractLsb'_append_low _ _ _ _ (by omega), extractLsb'_whole]; rfl

@[simp] theorem funct3Field_encI : funct3Field (encI imm a f3 d op) = f3 := by
  show BitVec.extractLsb' 12 3 (imm ++ regBits a ++ f3 ++ regBits d ++ op) = _
  rw [extractLsb'_append_high _ _ _ _ (by omega), extractLsb'_append_high _ _ _ _ (by omega),
    extractLsb'_append_low _ _ _ _ (by omega), extractLsb'_whole]

@[simp] theorem rs1Field_encI : rs1Field (encI imm a f3 d op) = a := by
  show (BitVec.extractLsb' 15 5 (imm ++ regBits a ++ f3 ++ regBits d ++ op)).toFin = _
  rw [extractLsb'_append_high _ _ _ _ (by omega), extractLsb'_append_high _ _ _ _ (by omega),
    extractLsb'_append_high _ _ _ _ (by omega), extractLsb'_append_low _ _ _ _ (by omega), extractLsb'_whole]; rfl

@[simp] theorem immI_encI : immI (encI imm a f3 d op) = imm := by
  show BitVec.extractLsb' 20 12 (imm ++ regBits a ++ f3 ++ regBits d ++ op) = _
  rw [extractLsb'_append_high _ _ _ _ (by omega), extractLsb'_append_high _ _ _ _ (by omega),
    extractLsb'_append_high _ _ _ _ (by omega), extractLsb'_append_high _ _ _ _ (by omega), extractLsb'_whole]

end I

/-! ### Format U -/

section U
variable (imm : BitVec 20) (d : RegIdx) (op : BitVec 7)

@[simp] theorem opcodeField_encU : opcodeField (encU imm d op) = op := by
  show BitVec.extractLsb' 0 7 (imm ++ regBits d ++ op) = _
  rw [extractLsb'_append_low _ _ _ _ (by omega), extractLsb'_whole]

@[simp] theorem rdField_encU : rdField (encU imm d op) = d := by
  show (BitVec.extractLsb' 7 5 (imm ++ regBits d ++ op)).toFin = _
  rw [extractLsb'_append_high _ _ _ _ (by omega), extractLsb'_append_low _ _ _ _ (by omega), extractLsb'_whole]; rfl

@[simp] theorem immU_encU : immU (encU imm d op) = imm := by
  show BitVec.extractLsb' 12 20 (imm ++ regBits d ++ op) = _
  rw [extractLsb'_append_high _ _ _ _ (by omega), extractLsb'_append_high _ _ _ _ (by omega), extractLsb'_whole]

end U

/-! ### The opcodes of the formats whose immediates are split (S, B, J) -/

@[simp] theorem opcodeField_encS (imm : BitVec 12) (b a : RegIdx) (f3 : BitVec 3) (op : BitVec 7) :
    opcodeField (encS imm b a f3 op) = op := by
  show BitVec.extractLsb' 0 7
    (imm.extractLsb' 5 7 ++ regBits b ++ regBits a ++ f3 ++ imm.extractLsb' 0 5 ++ op) = _
  rw [extractLsb'_append_low _ _ _ _ (by omega), extractLsb'_whole]

@[simp] theorem funct3Field_encS (imm : BitVec 12) (b a : RegIdx) (f3 : BitVec 3) (op : BitVec 7) :
    funct3Field (encS imm b a f3 op) = f3 := by
  show BitVec.extractLsb' 12 3
    (imm.extractLsb' 5 7 ++ regBits b ++ regBits a ++ f3 ++ imm.extractLsb' 0 5 ++ op) = _
  rw [extractLsb'_append_high _ _ _ _ (by omega), extractLsb'_append_high _ _ _ _ (by omega),
    extractLsb'_append_low _ _ _ _ (by omega), extractLsb'_whole]

@[simp] theorem opcodeField_encB (imm : BitVec 13) (b a : RegIdx) (f3 : BitVec 3) (op : BitVec 7) :
    opcodeField (encB imm b a f3 op) = op := by
  show BitVec.extractLsb' 0 7 (imm.extractLsb' 12 1 ++ imm.extractLsb' 5 6 ++ regBits b ++ regBits a ++ f3 ++
    imm.extractLsb' 1 4 ++ imm.extractLsb' 11 1 ++ op) = _
  rw [extractLsb'_append_low _ _ _ _ (by omega), extractLsb'_whole]

@[simp] theorem funct3Field_encB (imm : BitVec 13) (b a : RegIdx) (f3 : BitVec 3) (op : BitVec 7) :
    funct3Field (encB imm b a f3 op) = f3 := by
  show BitVec.extractLsb' 12 3 (imm.extractLsb' 12 1 ++ imm.extractLsb' 5 6 ++ regBits b ++ regBits a ++ f3 ++
    imm.extractLsb' 1 4 ++ imm.extractLsb' 11 1 ++ op) = _
  rw [extractLsb'_append_high _ _ _ _ (by omega), extractLsb'_append_high _ _ _ _ (by omega),
    extractLsb'_append_high _ _ _ _ (by omega), extractLsb'_append_low _ _ _ _ (by omega), extractLsb'_whole]

@[simp] theorem opcodeField_encJ (imm : BitVec 21) (d : RegIdx) (op : BitVec 7) : opcodeField (encJ imm d op) = op := by
  show BitVec.extractLsb' 0 7 (imm.extractLsb' 20 1 ++ imm.extractLsb' 1 10 ++ imm.extractLsb' 11 1 ++
    imm.extractLsb' 12 8 ++ regBits d ++ op) = _
  rw [extractLsb'_append_low _ _ _ _ (by omega), extractLsb'_whole]

/-! ### Masks are fields -/

/-- A word is its format R fields (R61, R62). -/
theorem encR_fields (w : Word) :
    encR (funct7Field w) (shamtField w) (rs1Field w) (funct3Field w) (rdField w) (opcodeField w) = w := by
  show (w.extractLsb' 25 7 ++ w.extractLsb' 20 5 ++ w.extractLsb' 15 5 ++ w.extractLsb' 12 3 ++ w.extractLsb' 7 5 ++
    w.extractLsb' 0 7) = w
  rw [BitVec.extractLsb'_append_extractLsb'_eq_extractLsb' (by rfl),
    BitVec.extractLsb'_append_extractLsb'_eq_extractLsb' (by rfl),
    BitVec.extractLsb'_append_extractLsb'_eq_extractLsb' (by rfl),
    BitVec.extractLsb'_append_extractLsb'_eq_extractLsb' (by rfl),
    BitVec.extractLsb'_append_extractLsb'_eq_extractLsb' (by rfl)]
  exact extractLsb'_whole w

/-- The mask of the rows with `funct7` keeps `funct7`, `funct3` and the opcode (R72, R73, R234). -/
theorem and_mask_funct7 (w : Word) :
    w &&& 0xfe00707f#32 = encR (funct7Field w) 0 0 (funct3Field w) 0 (opcodeField w) := by
  conv_lhs => rw [← encR_fields w]
  show (funct7Field w ++ shamtField w ++ regBits (rs1Field w) ++ funct3Field w ++ regBits (rdField w) ++ opcodeField w)
    &&& (127#7 ++ 0#5 ++ 0#5 ++ 7#3 ++ 0#5 ++ 127#7) = _
  simp only [BitVec.and_append, BitVec.and_zero, show 127#7 = BitVec.allOnes 7 from rfl,
    show 7#3 = BitVec.allOnes 3 from rfl, BitVec.and_allOnes]
  rfl

/-- The mask of the rows without `funct7` keeps `funct3` and the opcode (R73, R74, R234). -/
theorem and_mask_funct3 (w : Word) : w &&& 0x0000707f#32 = encR 0 0 0 (funct3Field w) 0 (opcodeField w) := by
  conv_lhs => rw [← encR_fields w]
  show (funct7Field w ++ shamtField w ++ regBits (rs1Field w) ++ funct3Field w ++ regBits (rdField w) ++ opcodeField w)
    &&& (0#7 ++ 0#5 ++ 0#5 ++ 7#3 ++ 0#5 ++ 127#7) = _
  simp only [BitVec.and_append, BitVec.and_zero, show 127#7 = BitVec.allOnes 7 from rfl,
    show 7#3 = BitVec.allOnes 3 from rfl, BitVec.and_allOnes]
  rfl

/-- The mask of the rows without `funct3` keeps the opcode (R63, R234). -/
theorem and_mask_opcode (w : Word) : w &&& 0x0000007f#32 = encR 0 0 0 0 0 (opcodeField w) := by
  conv_lhs => rw [← encR_fields w]
  show (funct7Field w ++ shamtField w ++ regBits (rs1Field w) ++ funct3Field w ++ regBits (rdField w) ++ opcodeField w)
    &&& (0#7 ++ 0#5 ++ 0#5 ++ 0#3 ++ 0#5 ++ 127#7) = _
  simp only [BitVec.and_append, BitVec.and_zero, show 127#7 = BitVec.allOnes 7 from rfl, BitVec.and_allOnes]
  rfl

/-- Words of the encoder's format R that keep only the fixed fields differ exactly when those fields do. -/
theorem encR_fixed_inj {f7 f7' : BitVec 7} {f3 f3' : BitVec 3} {op op' : BitVec 7} :
    encR f7 0 0 f3 0 op = encR f7' 0 0 f3' 0 op' ↔ f7 = f7' ∧ f3 = f3' ∧ op = op' := by
  constructor
  · intro h
    exact ⟨by simpa using congrArg funct7Field h, by simpa using congrArg funct3Field h,
      by simpa using congrArg opcodeField h⟩
  · rintro ⟨rfl, rfl, rfl⟩; rfl

end Sys2Proof
end

