-- ==== Sys2Proof/Laws/Memory.lean ====
section
/-! SUPPORT. The laws of memory: a read after a write, the canonical form, byte order, and what `memRead` and `memWrite`
can answer. -/

namespace Sys2Proof.Machine

/-! ### One byte -/

/-- Reading after a write: the byte written at its address, every other as before (R40). -/
theorem Memory.read_write (m : Memory) (a k : Nat) (v : Byte) :
    (m.write a v).read k = if k = a then some v else m.read k := by
  induction m with
  | nil => simp [Memory.write, Memory.read, eq_comm]
  | cons c m ih =>
    obtain ⟨j, b⟩ := c
    simp only [Memory.write]
    split
    · simp only [Memory.read, eq_comm]
    · split
      · next h => subst h; simp only [Memory.read]; grind
      · simp only [Memory.read, ih]; grind

/-- A write lists no address but the one written and those listed before. -/
theorem Memory.mem_write {m : Memory} {a : Nat} {v : Byte} {c : Host.Cell} (h : c ∈ m.write a v) :
    c = (a, v) ∨ c ∈ m := by
  induction m with
  | nil => simpa [Memory.write] using h
  | cons d m ih =>
    obtain ⟨j, b⟩ := d
    simp only [Memory.write] at h
    split at h
    · simpa using h
    · split at h
      · simp only [List.mem_cons] at h ⊢; tauto
      · simp only [List.mem_cons] at h ⊢
        rcases h with h | h
        · exact .inr (.inl h)
        · rcases ih h with h | h
          · exact .inl h
          · exact .inr (.inr h)

/-- A write at a 32-bit address keeps the canonical form. -/
theorem Memory.wf_write {m : Memory} {a : Nat} {v : Byte} (h : m.wf) (ha : a < 2 ^ 32) : (m.write a v).wf := by
  refine ⟨?_, fun c hc => ?_⟩
  · replace h := h.1
    induction m with
    | nil => simp [Memory.write]
    | cons d m ih =>
      obtain ⟨j, b⟩ := d
      obtain ⟨hd, hm⟩ := List.pairwise_cons.1 h
      simp only [Memory.write]
      split
      · next hlt =>
        refine List.pairwise_cons.2 ⟨fun c hc => ?_, h⟩
        rcases List.mem_cons.1 hc with rfl | hc
        · exact hlt
        · exact Nat.lt_trans hlt (hd c hc)
      · split
        · next heq => subst heq; exact List.pairwise_cons.2 ⟨hd, hm⟩
        · next hlt heq =>
          refine List.pairwise_cons.2 ⟨fun c hc => ?_, ih hm⟩
          rcases Memory.mem_write hc with rfl | hc
          · show j < a; omega
          · exact hd c hc
  · rcases Memory.mem_write hc with rfl | hc
    · exact ⟨ha, by simp [Memory.unlisted]⟩
    · exact h.2 c hc

/-! ### Several bytes -/

/-- All that writing bytes at rising addresses does (R33 step 4). -/
theorem Memory.read_writeBytes (m : Memory) (a : Nat) (vs : List Byte) (k : Nat) :
    (m.writeBytes a vs).read k = if a ≤ k ∧ k < a + vs.length then vs[k - a]? else m.read k := by
  induction vs generalizing m a with
  | nil => simp only [Memory.writeBytes, List.length_nil]; split <;> [omega; rfl]
  | cons v vs ih =>
    simp only [Memory.writeBytes, ih, Memory.read_write, List.length_cons]
    by_cases hk : k = a
    · subst hk; simp
    · by_cases h : a + 1 ≤ k ∧ k < a + 1 + vs.length
      · rw [if_pos h, if_pos (by omega), show k - a = (k - (a + 1)) + 1 by omega, List.getElem?_cons_succ]
      · rw [if_neg h, if_neg hk, if_neg (by omega)]

/-- Writing bytes lists no address but those written and those listed before. -/
theorem Memory.mem_writeBytes {m : Memory} {a : Nat} {vs : List Byte} {c : Host.Cell} (h : c ∈ m.writeBytes a vs) :
    (a ≤ c.1 ∧ c.1 < a + vs.length) ∨ c ∈ m := by
  induction vs generalizing m a with
  | nil => exact .inr h
  | cons v vs ih =>
    rcases ih (m := m.write a v) (a := a + 1) h with h | h
    · left; simp only [List.length_cons]; omega
    · rcases Memory.mem_write h with rfl | h
      · left; simp
      · exact .inr h

/-- Writing bytes inside the 32-bit space keeps the canonical form. -/
theorem Memory.wf_writeBytes {m : Memory} {a : Nat} {vs : List Byte} (h : m.wf) (ha : a + vs.length ≤ 2 ^ 32) :
    (m.writeBytes a vs).wf := by
  induction vs generalizing m a with
  | nil => exact h
  | cons v vs ih =>
    simp only [List.length_cons] at ha
    exact ih (Memory.wf_write h (by omega)) (by omega)

/-- Reading bytes succeeds exactly with the values the bytes have. -/
theorem Memory.readBytes_ok_iff (m : Memory) (a n : Nat) (bs : List Byte) :
    m.readBytes a n = .ok bs ↔ bs.length = n ∧ ∀ k < n, m.read (a + k) = bs[k]? := by
  induction n generalizing a bs with
  | zero => cases bs <;> simp [Memory.readBytes]
  | succ n ih =>
    simp only [Memory.readBytes]
    constructor
    · intro h
      split at h
      · cases h
      · next b hb =>
        split at h
        · next cs hcs =>
          cases h
          obtain ⟨hl, hr⟩ := (ih _ _).1 hcs
          refine ⟨by simp [hl], fun k hk => ?_⟩
          cases k with
          | zero => simpa using hb
          | succ k => simpa [Nat.add_assoc, Nat.add_comm 1] using hr k (by omega)
        · cases h
    · rintro ⟨hl, hr⟩
      cases bs with
      | nil => simp at hl
      | cons b cs =>
        have h0 : m.read a = some b := by simpa using hr 0 (by omega)
        have : m.readBytes (a + 1) n = .ok cs :=
          (ih _ _).2 ⟨by simpa using hl, fun k hk => by simpa [Nat.add_assoc, Nat.add_comm 1] using hr (k + 1) (by omega)⟩
        simp [h0, this]

/-- Reading bytes fails exactly at the first byte without a value. -/
theorem Memory.readBytes_error_iff (m : Memory) (a n : Nat) (f : Fault) :
    m.readBytes a n = .error f ↔
      ∃ k < n, m.read (a + k) = none ∧ (∀ j < k, m.read (a + j) ≠ none) ∧ f = .unwrittenRead (BitVec.ofNat 32 (a + k)) := by
  induction n generalizing a with
  | zero => simp [Memory.readBytes]
  | succ n ih =>
    simp only [Memory.readBytes]
    cases h0 : m.read a with
    | none =>
      constructor
      · intro h; cases h
        exact ⟨0, by omega, by simpa using h0, by simp, by simp⟩
      · rintro ⟨k, _, _, hj, rfl⟩
        cases k with
        | zero => rfl
        | succ k => exact absurd (by simpa using h0) (hj 0 (by omega))
    | some b =>
      have key : (∃ k < n + 1, m.read (a + k) = none ∧ (∀ j < k, m.read (a + j) ≠ none) ∧
          f = .unwrittenRead (BitVec.ofNat 32 (a + k))) ↔ m.readBytes (a + 1) n = .error f := by
        rw [ih]
        constructor
        · rintro ⟨k, hk, hn, hj, rfl⟩
          cases k with
          | zero => simp [h0] at hn
          | succ k =>
            refine ⟨k, by omega, by rwa [Nat.add_assoc, Nat.add_comm 1], fun j hjk => ?_, by rw [Nat.add_assoc, Nat.add_comm 1]⟩
            rw [Nat.add_assoc, Nat.add_comm 1]; exact hj (j + 1) (by omega)
        · rintro ⟨k, hk, hn, hj, rfl⟩
          refine ⟨k + 1, by omega, by rwa [Nat.add_assoc, Nat.add_comm 1] at hn, fun j hjk => ?_, by rw [Nat.add_assoc, Nat.add_comm 1]⟩
          cases j with
          | zero => simp [h0]
          | succ j => rw [← Nat.add_comm 1, ← Nat.add_assoc]; exact hj j (by omega)
      rw [key]
      cases m.readBytes (a + 1) n <;> simp

/-! ### Byte order (R34) -/

@[simp] theorem splitLE_length (v : Word) (n : Nat) : (splitLE v n).length = n := by
  induction n generalizing v with
  | zero => rfl
  | succ n ih => simp [splitLE, ih]

/-- Byte `k` of a stored word is bits `8k+7` to `8k` (R33 step 4). -/
theorem splitLE_getElem? (v : Word) (n k : Nat) (h : k < n) : (splitLE v n)[k]? = some (v.extractLsb' (8 * k) 8) := by
  induction n generalizing v k with
  | zero => omega
  | succ n ih =>
    cases k with
    | zero => simp only [splitLE, List.getElem?_cons_zero, Option.some.injEq]; ext i hi; simp
    | succ k =>
      simp only [splitLE, List.getElem?_cons_succ, ih (v >>> 8) k (by omega), Option.some.injEq]
      ext i hi
      simp only [BitVec.getElem_extractLsb', BitVec.getLsbD_ushiftRight]
      congr 1; omega

theorem joinLE_lt (bs : List Byte) : joinLE bs < 2 ^ (8 * bs.length) := by
  induction bs with
  | nil => simp [joinLE]
  | cons b bs ih =>
    have hb := b.isLt
    simp only [joinLE, List.length_cons, Nat.mul_add, Nat.pow_add] at *
    omega

/-- Byte `k` of a loaded value is the byte read at `addr + k` (R32 step 5). -/
theorem joinLE_byte (bs : List Byte) (k : Nat) (h : k < bs.length) :
    joinLE bs / 2 ^ (8 * k) % 256 = (bs[k]).toNat := by
  induction bs generalizing k with
  | nil => simp at h
  | cons b bs ih =>
    have hb := b.isLt
    cases k with
    | zero => simp [joinLE]; omega
    | succ k =>
      have : (b.toNat + 256 * joinLE bs) / 2 ^ (8 * (k + 1)) = joinLE bs / 2 ^ (8 * k) := by
        rw [show 8 * (k + 1) = 8 + 8 * k by omega, Nat.pow_add, ← Nat.div_div_eq_div_mul]
        congr 1; omega
      simp only [joinLE, this, List.getElem_cons_succ]
      exact ih k (by simpa using h)

/-- The bytes of a value, joined, are the value: the numbers with the same bytes are equal (R34). -/
theorem joinLE_eq_of_bytes (bs : List Byte) (v : Nat) (hv : v < 2 ^ (8 * bs.length))
    (h : ∀ k (hk : k < bs.length), v / 2 ^ (8 * k) % 256 = (bs[k]).toNat) : joinLE bs = v := by
  induction bs generalizing v with
  | nil => simp at hv; simp [joinLE, hv]
  | cons b bs ih =>
    have h0 : v % 256 = b.toNat := by
      have := h 0 (by simp)
      rwa [Nat.mul_zero, Nat.pow_zero, Nat.div_one, List.getElem_cons_zero] at this
    have : joinLE bs = v / 256 := by
      apply ih
      · simp only [List.length_cons, Nat.mul_add, Nat.pow_add] at hv; omega
      · intro k hk
        have := h (k + 1) (by simpa using hk)
        rw [show 8 * (k + 1) = 8 + 8 * k by omega, Nat.pow_add, ← Nat.div_div_eq_div_mul] at this
        simpa using this
    simp only [joinLE, this]; omega

/-! ### What `checkAccess`, `memRead` and `memWrite` can answer -/

theorem Width.bytes_pos (w : Width) : 0 < w.bytes := by cases w <;> decide

/-- An aligned access does not reach past the 32-bit space (R32: "`addr + n - 1` does not wrap"). -/
theorem aligned_access_fits (addr : Word) (w : Width) (h : addr.toNat % w.bytes = 0) : addr.toNat + w.bytes ≤ 2 ^ 32 := by
  have := addr.isLt
  cases w <;> simp only [Width.bytes] at * <;> omega

theorem byteAddrs_any (a n : Nat) (p : Nat → Bool) : (byteAddrs a n).any p = true ↔ ∃ k < n, p (a + k) = true := by
  simp [byteAddrs, List.any_eq_true]

/-- The three checks pass exactly when the access is aligned, touches no byte of the image and no byte outside
`MEM_VALID` (R32, R33 steps 1 to 3). -/
theorem checkAccess_ok_iff (s : State) (addr : Word) (w : Width) :
    checkAccess s addr w = .ok () ↔ addr.toNat % w.bytes = 0 ∧ ∀ k < w.bytes, s.inMemValid (addr.toNat + k) = true := by
  simp only [checkAccess, byteAddrs_any]
  constructor
  · intro h
    split at h
    · cases h
    · next ha =>
      split at h
      · cases h
      · split at h
        · cases h
        · next hv =>
          refine ⟨by simpa using ha, fun k hk => ?_⟩
          by_contra hc
          exact hv ⟨k, hk, by simpa using hc⟩
  · rintro ⟨ha, hv⟩
    rw [if_neg (by simpa using ha), if_neg, if_neg]
    · rintro ⟨k, hk, hc⟩; simp [hv k hk] at hc
    · rintro ⟨k, hk, hc⟩
      have := hv k hk
      simp [State.inMemValid, hc] at this

/-- The first check that fails gives the fault (R32, R33, R203 steps 7 to 9). -/
theorem checkAccess_error_iff (s : State) (addr : Word) (w : Width) (f : Fault) :
    checkAccess s addr w = .error f ↔
      (addr.toNat % w.bytes ≠ 0 ∧ f = .misalignedAccess addr) ∨
      (addr.toNat % w.bytes = 0 ∧ (∃ k < w.bytes, s.image.contains (addr.toNat + k) = true) ∧ f = .imageAccess addr) ∨
      (addr.toNat % w.bytes = 0 ∧ (∀ k < w.bytes, s.image.contains (addr.toNat + k) = false) ∧
        (∃ k < w.bytes, s.inMemValid (addr.toNat + k) = false) ∧ f = .accessFault addr) := by
  simp only [checkAccess, byteAddrs_any]
  by_cases ha : addr.toNat % w.bytes = 0
  · rw [if_neg (by simpa using ha)]
    by_cases hi : ∃ k < w.bytes, s.image.contains (addr.toNat + k) = true
    · rw [if_pos hi]
      have hn : ¬ ∀ k < w.bytes, s.image.contains (addr.toNat + k) = false := by
        obtain ⟨k, hk, hc⟩ := hi
        intro h; rw [h k hk] at hc; cases hc
      constructor
      · intro h; cases h; exact .inr (.inl ⟨ha, hi, rfl⟩)
      · rintro (⟨h, _⟩ | ⟨_, _, rfl⟩ | ⟨_, h, _⟩)
        · exact absurd ha h
        · rfl
        · exact absurd h hn
    · rw [if_neg hi]
      have hi' : ∀ k < w.bytes, s.image.contains (addr.toNat + k) = false := fun k hk =>
        Bool.eq_false_iff.2 fun hc => hi ⟨k, hk, hc⟩
      by_cases hv : ∃ k < w.bytes, s.inMemValid (addr.toNat + k) = false
      · rw [if_pos (by simpa using hv)]
        constructor
        · intro h; cases h; exact .inr (.inr ⟨ha, hi', hv, rfl⟩)
        · rintro (⟨h, _⟩ | ⟨_, h, _⟩ | ⟨_, _, _, rfl⟩)
          · exact absurd ha h
          · exact absurd h hi
          · rfl
      · rw [if_neg (by simpa using hv)]
        constructor
        · intro h; cases h
        · rintro (⟨h, _⟩ | ⟨_, h, _⟩ | ⟨_, _, h, _⟩)
          · exact absurd ha h
          · exact absurd h hi
          · exact absurd h hv
  · rw [if_pos ha]
    constructor
    · intro h; cases h; exact .inl ⟨ha, rfl⟩
    · rintro (⟨_, rfl⟩ | ⟨h, _⟩ | ⟨h, _⟩)
      · rfl
      · exact absurd h ha
      · exact absurd h ha

/-- `MemRead` answers a value exactly when the checks pass and the bytes hold it, little-endian (R32, R34). -/
theorem memRead_ok_iff (s : State) (addr : Word) (w : Width) (v : BitVec w.bits) :
    memRead s addr w = .ok v ↔
      checkAccess s addr w = .ok () ∧ ∀ k < w.bytes, s.mem.read (addr.toNat + k) = some (v.extractLsb' (8 * k) 8) := by
  simp only [memRead]
  cases hc : checkAccess s addr w with
  | error f => simp
  | ok u =>
    simp only [true_and]
    constructor
    · intro h
      split at h
      · cases h
      · next bs hbs =>
        cases h
        obtain ⟨hl, hr⟩ := (Memory.readBytes_ok_iff _ _ _ _).1 hbs
        intro k hk
        rw [hr k hk, List.getElem?_eq_getElem (by omega), Option.some.injEq]
        apply BitVec.eq_of_toNat_eq
        have hlt := joinLE_lt bs
        rw [hl] at hlt
        have := joinLE_byte bs k (by omega)
        simp only [BitVec.extractLsb'_toNat, BitVec.toNat_ofNat, Nat.shiftRight_eq_div_pow]
        rw [Nat.mod_eq_of_lt hlt]
        exact this.symm
    · intro h
      have hbs : s.mem.readBytes addr.toNat w.bytes =
          .ok ((List.range w.bytes).map fun k => v.extractLsb' (8 * k) 8) := by
        rw [Memory.readBytes_ok_iff]
        refine ⟨by simp, fun k hk => ?_⟩
        rw [h k hk]; simp [hk]
      rw [hbs]
      simp only [Except.ok.injEq]
      apply BitVec.eq_of_toNat_eq
      rw [joinLE_eq_of_bytes _ v.toNat]
      · simp
      · simpa using v.isLt
      · intro k hk
        simp [BitVec.extractLsb'_toNat, Nat.shiftRight_eq_div_pow]

/-- `MemWrite` answers exactly when the checks pass, and then with the low bytes of the value written (R33). -/
theorem memWrite_ok_iff (s : State) (addr : Word) (w : Width) (v : Word) (m : Memory) :
    memWrite s addr w v = .ok m ↔
      checkAccess s addr w = .ok () ∧ m = s.mem.writeBytes addr.toNat (splitLE v w.bytes) := by
  simp only [memWrite]
  cases checkAccess s addr w <;> simp [eq_comm]

/-- What `MemWrite` leaves in every byte (R33 step 4, R31: "the other bytes … are unchanged"). -/
theorem memWrite_read {s : State} {addr : Word} {w : Width} {v : Word} {m : Memory} (h : memWrite s addr w v = .ok m)
    (a : Nat) :
    m.read a = if addr.toNat ≤ a ∧ a < addr.toNat + w.bytes then some (v.extractLsb' (8 * (a - addr.toNat)) 8)
      else s.mem.read a := by
  obtain ⟨_, rfl⟩ := (memWrite_ok_iff _ _ _ _ _).1 h
  rw [Memory.read_writeBytes, splitLE_length]
  split
  · exact splitLE_getElem? _ _ _ (by omega)
  · rfl

/-- `MemWrite` keeps the canonical form. -/
theorem memWrite_wf {s : State} {addr : Word} {w : Width} {v : Word} {m : Memory} (hm : s.mem.wf)
    (h : memWrite s addr w v = .ok m) : m.wf := by
  obtain ⟨hc, rfl⟩ := (memWrite_ok_iff _ _ _ _ _).1 h
  have := aligned_access_fits addr w ((checkAccess_ok_iff _ _ _).1 hc).1
  exact Memory.wf_writeBytes hm (by simpa using this)

/-- `MemWrite` lists only bytes of `MEM_VALID` besides those listed before (R33 step 3). -/
theorem memWrite_mem {s : State} {addr : Word} {w : Width} {v : Word} {m : Memory} {c : Host.Cell}
    (h : memWrite s addr w v = .ok m) (hc : c ∈ m) : s.inMemValid c.1 = true ∨ c ∈ s.mem := by
  obtain ⟨hk, rfl⟩ := (memWrite_ok_iff _ _ _ _ _).1 h
  rcases Memory.mem_writeBytes hc with h | h
  · left
    rw [splitLE_length] at h
    have := ((checkAccess_ok_iff _ _ _).1 hk).2 (c.1 - addr.toNat) (by omega)
    rwa [Nat.add_sub_cancel' h.1] at this
  · exact .inr h

/-- The memory built from `MEM_INIT` keeps the canonical form (used by the launch). -/
theorem Memory.wf_foldl_write (cells : List Host.Cell) (m : Memory) (hm : m.wf) (h : ∀ c ∈ cells, c.1 < 2 ^ 32) :
    (cells.foldl (fun m c => Memory.write m c.1 c.2) m).wf := by
  induction cells generalizing m with
  | nil => exact hm
  | cons c cs ih =>
    exact ih _ (Memory.wf_write hm (h c (by simp))) fun d hd => h d (by simp [hd])

/-- The memory built from `MEM_INIT` lists only its addresses. -/
theorem Memory.mem_foldl_write (cells : List Host.Cell) (m : Memory) {c : Host.Cell}
    (h : c ∈ cells.foldl (fun m c => Memory.write m c.1 c.2) m) : c ∈ cells ∨ c ∈ m := by
  induction cells generalizing m with
  | nil => exact .inr h
  | cons d ds ih =>
    rcases ih _ h with h | h
    · left; simp [h]
    · rcases Memory.mem_write h with rfl | h
      · left; simp
      · exact .inr h

end Sys2Proof.Machine
end

