-- ==== Sys2Proof/Laws/State.lean ====
section
/-! SUPPORT. One lemma per field per update of the state, and the laws of the register file. -/

namespace Sys2Proof.Machine

@[simp] theorem State.withPc_x (s : State) (v : Word) : (s.withPc v).x = s.x := rfl
@[simp] theorem State.withPc_pc (s : State) (v : Word) : (s.withPc v).pc = v := rfl
@[simp] theorem State.withPc_mem (s : State) (v : Word) : (s.withPc v).mem = s.mem := rfl
@[simp] theorem State.withPc_status (s : State) (v : Word) : (s.withPc v).status = s.status := rfl
@[simp] theorem State.withPc_steps (s : State) (v : Word) : (s.withPc v).steps = s.steps := rfl
@[simp] theorem State.withPc_image (s : State) (v : Word) : (s.withPc v).image = s.image := rfl
@[simp] theorem State.withPc_endPc (s : State) (v : Word) : (s.withPc v).endPc = s.endPc := rfl
@[simp] theorem State.withPc_memValid (s : State) (v : Word) : (s.withPc v).memValid = s.memValid := rfl
@[simp] theorem State.withPc_divCorner (s : State) (v : Word) : (s.withPc v).divCorner = s.divCorner := rfl

@[simp] theorem State.withMem_x (s : State) (m : Memory) : (s.withMem m).x = s.x := rfl
@[simp] theorem State.withMem_pc (s : State) (m : Memory) : (s.withMem m).pc = s.pc := rfl
@[simp] theorem State.withMem_mem (s : State) (m : Memory) : (s.withMem m).mem = m := rfl
@[simp] theorem State.withMem_status (s : State) (m : Memory) : (s.withMem m).status = s.status := rfl
@[simp] theorem State.withMem_steps (s : State) (m : Memory) : (s.withMem m).steps = s.steps := rfl
@[simp] theorem State.withMem_image (s : State) (m : Memory) : (s.withMem m).image = s.image := rfl
@[simp] theorem State.withMem_endPc (s : State) (m : Memory) : (s.withMem m).endPc = s.endPc := rfl
@[simp] theorem State.withMem_memValid (s : State) (m : Memory) : (s.withMem m).memValid = s.memValid := rfl
@[simp] theorem State.withMem_divCorner (s : State) (m : Memory) : (s.withMem m).divCorner = s.divCorner := rfl

@[simp] theorem State.withStatus_x (s : State) (st : Status) : (s.withStatus st).x = s.x := rfl
@[simp] theorem State.withStatus_pc (s : State) (st : Status) : (s.withStatus st).pc = s.pc := rfl
@[simp] theorem State.withStatus_mem (s : State) (st : Status) : (s.withStatus st).mem = s.mem := rfl
@[simp] theorem State.withStatus_status (s : State) (st : Status) : (s.withStatus st).status = st := rfl
@[simp] theorem State.withStatus_steps (s : State) (st : Status) : (s.withStatus st).steps = s.steps := rfl
@[simp] theorem State.withStatus_image (s : State) (st : Status) : (s.withStatus st).image = s.image := rfl
@[simp] theorem State.withStatus_endPc (s : State) (st : Status) : (s.withStatus st).endPc = s.endPc := rfl
@[simp] theorem State.withStatus_memValid (s : State) (st : Status) : (s.withStatus st).memValid = s.memValid := rfl
@[simp] theorem State.withStatus_divCorner (s : State) (st : Status) : (s.withStatus st).divCorner = s.divCorner := rfl

@[simp] theorem State.countStep_x (s : State) : s.countStep.x = s.x := rfl
@[simp] theorem State.countStep_pc (s : State) : s.countStep.pc = s.pc := rfl
@[simp] theorem State.countStep_mem (s : State) : s.countStep.mem = s.mem := rfl
@[simp] theorem State.countStep_status (s : State) : s.countStep.status = s.status := rfl
@[simp] theorem State.countStep_steps (s : State) : s.countStep.steps = s.steps + 1 := rfl
@[simp] theorem State.countStep_image (s : State) : s.countStep.image = s.image := rfl
@[simp] theorem State.countStep_endPc (s : State) : s.countStep.endPc = s.endPc := rfl
@[simp] theorem State.countStep_memValid (s : State) : s.countStep.memValid = s.memValid := rfl
@[simp] theorem State.countStep_divCorner (s : State) : s.countStep.divCorner = s.divCorner := rfl

@[simp] theorem State.advance_x (s : State) : s.advance.x = s.x := rfl
@[simp] theorem State.advance_pc (s : State) : s.advance.pc = s.pc + 4#32 := rfl
@[simp] theorem State.advance_mem (s : State) : s.advance.mem = s.mem := rfl
@[simp] theorem State.advance_status (s : State) : s.advance.status = s.status := rfl
@[simp] theorem State.advance_steps (s : State) : s.advance.steps = s.steps := rfl
@[simp] theorem State.advance_image (s : State) : s.advance.image = s.image := rfl
@[simp] theorem State.advance_endPc (s : State) : s.advance.endPc = s.endPc := rfl
@[simp] theorem State.advance_memValid (s : State) : s.advance.memValid = s.memValid := rfl
@[simp] theorem State.advance_divCorner (s : State) : s.advance.divCorner = s.divCorner := rfl

@[simp] theorem State.writeReg_pc (s : State) (r : RegIdx) (v : Word) : (s.writeReg r v).pc = s.pc := by
  unfold State.writeReg; split <;> rfl
@[simp] theorem State.writeReg_mem (s : State) (r : RegIdx) (v : Word) : (s.writeReg r v).mem = s.mem := by
  unfold State.writeReg; split <;> rfl
@[simp] theorem State.writeReg_status (s : State) (r : RegIdx) (v : Word) : (s.writeReg r v).status = s.status := by
  unfold State.writeReg; split <;> rfl
@[simp] theorem State.writeReg_steps (s : State) (r : RegIdx) (v : Word) : (s.writeReg r v).steps = s.steps := by
  unfold State.writeReg; split <;> rfl
@[simp] theorem State.writeReg_image (s : State) (r : RegIdx) (v : Word) : (s.writeReg r v).image = s.image := by
  unfold State.writeReg; split <;> rfl
@[simp] theorem State.writeReg_endPc (s : State) (r : RegIdx) (v : Word) : (s.writeReg r v).endPc = s.endPc := by
  unfold State.writeReg; split <;> rfl
@[simp] theorem State.writeReg_memValid (s : State) (r : RegIdx) (v : Word) : (s.writeReg r v).memValid = s.memValid := by
  unfold State.writeReg; split <;> rfl
@[simp] theorem State.writeReg_divCorner (s : State) (r : RegIdx) (v : Word) : (s.writeReg r v).divCorner = s.divCorner := by
  unfold State.writeReg; split <;> rfl

@[simp] theorem State.withPc_readReg (s : State) (v : Word) (r : RegIdx) : (s.withPc v).readReg r = s.readReg r := rfl
@[simp] theorem State.withMem_readReg (s : State) (m : Memory) (r : RegIdx) : (s.withMem m).readReg r = s.readReg r := rfl
@[simp] theorem State.withStatus_readReg (s : State) (st : Status) (r : RegIdx) : (s.withStatus st).readReg r = s.readReg r := rfl
@[simp] theorem State.countStep_readReg (s : State) (r : RegIdx) : s.countStep.readReg r = s.readReg r := rfl
@[simp] theorem State.advance_readReg (s : State) (r : RegIdx) : s.advance.readReg r = s.readReg r := rfl

/-! ### The register file -/

/-- `x[0]` reads 0 (R11). -/
@[simp] theorem State.readReg_zero (s : State) : s.readReg 0 = 0#32 := rfl

/-- A write to `x[0]` is discarded (R11). -/
@[simp] theorem State.writeReg_zero (s : State) (v : Word) : s.writeReg 0 v = s := rfl

/-- All that a register write does to the registers (R8, R11). -/
theorem State.writeReg_readReg (s : State) (rd r : RegIdx) (v : Word) :
    (s.writeReg rd v).readReg r = if r = 0 then 0#32 else if r = rd then v else s.readReg r := by
  by_cases hr : r = 0
  · simp [hr]
  · by_cases hd : rd = 0
    · simp [hd, hr]
    · simp only [State.readReg, State.writeReg, hr, hd, if_false, Vector.getElem_set, Fin.val_inj]
      by_cases h : rd = r <;> simp [h, Ne.symm]

/-- Reading another register than the one written. -/
theorem State.writeReg_readReg_ne (s : State) {rd r : RegIdx} (v : Word) (h : r ≠ rd) :
    (s.writeReg rd v).readReg r = s.readReg r := by
  rw [State.writeReg_readReg, if_neg h]
  split
  · next h0 => simp [h0]
  · rfl

/-- Reading back the register written. -/
theorem State.writeReg_readReg_self (s : State) {rd : RegIdx} (v : Word) (h : rd ≠ 0) :
    (s.writeReg rd v).readReg rd = v := by
  rw [State.writeReg_readReg, if_neg h, if_pos rfl]

/-- Slot 0 of the registers is never written. -/
@[simp] theorem State.writeReg_slot_zero (s : State) (rd : RegIdx) (v : Word) : (s.writeReg rd v).x[0] = s.x[0] := by
  unfold State.writeReg
  split
  · rfl
  · next h => simp [Fin.val_eq_zero_iff, h]

end Sys2Proof.Machine
end

