-- ==== Sys2Proof/Laws/Ops.lean ====
section
/-! SUPPORT. One lemma per shared operation that says all it can do, and the shape of every instruction. -/

namespace Sys2Proof.Machine

/-! ### Frames -/

@[simp] theorem SameRegs.refl (s : State) : SameRegs s s := fun _ => rfl
@[simp] theorem SameMem.refl (s : State) : SameMem s s := fun _ => rfl
@[simp] theorem SameLaunch.refl (s : State) : SameLaunch s s := ⟨rfl, rfl, rfl, rfl⟩
@[simp] theorem SameRest.refl (s : State) : SameRest s s := ⟨rfl, rfl, SameLaunch.refl s⟩

theorem SameLaunch.trans {s t u : State} (h : SameLaunch s t) (k : SameLaunch t u) : SameLaunch s u :=
  ⟨k.1.trans h.1, k.2.1.trans h.2.1, k.2.2.1.trans h.2.2.1, k.2.2.2.trans h.2.2.2⟩

/-- `MEM_VALID` depends on the launch parameters only. -/
theorem SameLaunch.inMemValid {s t : State} (h : SameLaunch s t) (a : Nat) : t.inMemValid a = s.inMemValid a := by
  obtain ⟨hi, _, hv, _⟩ := h
  simp [State.inMemValid, hi, hv]

/-! ### Register results -/

/-- `x[rd] <- v; pc <- pc + 4` is what `finishReg` reaches. -/
theorem writesReg_write_advance (s : State) (rd : RegIdx) (v : Word) : WritesReg s (s.writeReg rd v).advance rd v :=
  ⟨fun r => by simpa using State.writeReg_readReg s rd r v, by simp, fun a => by simp, by simp, by simp,
    by simp [SameLaunch]⟩

/-- All that `finishReg` can answer. -/
theorem finishReg_eq (rd : RegIdx) (v : Word) (s : State) : finishReg rd v s = .next (s.writeReg rd v).advance := rfl

theorem finishReg_writes {rd : RegIdx} {v : Word} {s t : State} (h : finishReg rd v s = .next t) : WritesReg s t rd v := by
  cases h; exact writesReg_write_advance s rd v

/-- The form of every result statement: an instruction that ends in `finishReg` completes, and writes just that. -/
theorem completes_of_finishReg {i : Instr} {s : State} {rd : RegIdx} {v w : Word} (h : exec i s = finishReg rd v s)
    (hv : v = w) : ∃ t, exec i s = .next t ∧ WritesReg s t rd w :=
  ⟨_, h, hv ▸ writesReg_write_advance s rd v⟩

/-! ### Checks and control transfers -/

theorem orRaise_next {α : Type} {e : Except Fault α} {k : α → Result} {t : State} (h : orRaise e k = .next t) :
    ∃ a, e = .ok a ∧ k a = .next t := by
  cases e with
  | ok a => exact ⟨a, rfl, h⟩
  | error f => cases h

theorem orRaise_fault {α : Type} {e : Except Fault α} {k : α → Result} {f : Fault} (h : orRaise e k = .fault f) :
    e = .error f ∨ ∃ a, e = .ok a ∧ k a = .fault f := by
  cases e with
  | ok a => exact .inr ⟨a, rfl, h⟩
  | error g => cases h; exact .inl rfl

theorem aligned4_iff (a : Word) : aligned4 a = true ↔ a.toNat % 4 = 0 := by simp [aligned4]

/-- `pc + 4` keeps the alignment, wrapping included (R15). -/
theorem aligned4_add_four {a : Word} (h : a.toNat % 4 = 0) : (a + 4#32).toNat % 4 = 0 := by
  rw [BitVec.toNat_add]; simp; omega

theorem transfer_next {target : Word} {s t : State} (h : transfer target s = .next t) :
    target.toNat % 4 = 0 ∧ t = s.withPc target := by
  unfold transfer at h
  split at h
  · next ha => cases h; exact ⟨(aligned4_iff _).1 ha, rfl⟩
  · cases h

theorem transfer_fault {target : Word} {s : State} {f : Fault} (h : transfer target s = .fault f) :
    target.toNat % 4 ≠ 0 ∧ f = .misalignedFetch target := by
  unfold transfer at h
  split at h
  · cases h
  · next ha => cases h; exact ⟨fun hc => ha ((aligned4_iff _).2 hc), rfl⟩

theorem jumpLink_next {rd : RegIdx} {target : Word} {s t : State} (h : jumpLink rd target s = .next t) :
    target.toNat % 4 = 0 ∧ t = (s.writeReg rd (s.pc + 4#32)).withPc target := by
  unfold jumpLink at h
  split at h
  · next ha => cases h; exact ⟨(aligned4_iff _).1 ha, rfl⟩
  · cases h

theorem jumpLink_fault {rd : RegIdx} {target : Word} {s : State} {f : Fault} (h : jumpLink rd target s = .fault f) :
    target.toNat % 4 ≠ 0 ∧ f = .misalignedFetch target := by
  unfold jumpLink at h
  split at h
  · cases h
  · next ha => cases h; exact ⟨fun hc => ha ((aligned4_iff _).2 hc), rfl⟩

theorem branchIf_next {c : Bool} {offset : BitVec 13} {s t : State} (h : branchIf c offset s = .next t) :
    (c = true ∧ (branchTarget s offset).toNat % 4 = 0 ∧ t = s.withPc (branchTarget s offset)) ∨
      (c = false ∧ t = s.advance) := by
  unfold branchIf at h
  split at h
  · next hc => exact .inl ⟨hc, transfer_next h⟩
  · next hc => cases h; exact .inr ⟨by simpa using hc, rfl⟩

theorem branchIf_fault {c : Bool} {offset : BitVec 13} {s : State} {f : Fault} (h : branchIf c offset s = .fault f) :
    c = true ∧ (branchTarget s offset).toNat % 4 ≠ 0 ∧ f = .misalignedFetch (branchTarget s offset) := by
  unfold branchIf at h
  split at h
  · next hc => exact ⟨hc, transfer_fault h⟩
  · cases h

/-! ### Loads and stores -/

theorem loadInto_next {w : Width} {ext : BitVec w.bits → Word} {rd rs1 : RegIdx} {offset : BitVec 12} {s t : State}
    (h : loadInto w ext rd rs1 offset s = .next t) :
    ∃ v, memRead s (effAddr s rs1 offset) w = .ok v ∧ t = (s.writeReg rd (ext v)).advance := by
  obtain ⟨v, hv, hk⟩ := orRaise_next h
  cases hk; exact ⟨v, hv, rfl⟩

theorem loadInto_fault {w : Width} {ext : BitVec w.bits → Word} {rd rs1 : RegIdx} {offset : BitVec 12} {s : State}
    {f : Fault} (h : loadInto w ext rd rs1 offset s = .fault f) : memRead s (effAddr s rs1 offset) w = .error f := by
  rcases orRaise_fault h with h | ⟨_, _, h⟩
  · exact h
  · cases h

theorem storeFrom_next {w : Width} {rs2 rs1 : RegIdx} {offset : BitVec 12} {s t : State}
    (h : storeFrom w rs2 rs1 offset s = .next t) :
    ∃ m, memWrite s (effAddr s rs1 offset) w (s.readReg rs2) = .ok m ∧ t = (s.withMem m).advance := by
  obtain ⟨m, hm, hk⟩ := orRaise_next h
  cases hk; exact ⟨m, hm, rfl⟩

theorem storeFrom_fault {w : Width} {rs2 rs1 : RegIdx} {offset : BitVec 12} {s : State} {f : Fault}
    (h : storeFrom w rs2 rs1 offset s = .fault f) :
    memWrite s (effAddr s rs1 offset) w (s.readReg rs2) = .error f := by
  rcases orRaise_fault h with h | ⟨_, _, h⟩
  · exact h
  · cases h

/-! ### Every instruction has one of five shapes -/

/-- What an instruction can do, said once: it ends in one of the shared operations, and its syntax says in which. -/
inductive ExecShape (i : Instr) (s : State) : Prop where
  | reg (rd : RegIdx) (v : Word) (hd : i.dest? = some rd) (ht : i.isTransfer = false) (ha : accessOf i = none)
      (h : exec i s = finishReg rd v s)
  | jump (rd : RegIdx) (target : Word) (hd : i.dest? = some rd) (ht : i.isTransfer = true) (ha : accessOf i = none)
      (h : exec i s = jumpLink rd target s)
  | branch (c : Bool) (offset : BitVec 13) (hd : i.dest? = none) (ht : i.isTransfer = true) (ha : accessOf i = none)
      (h : exec i s = branchIf c offset s)
  | load (w : Width) (ext : BitVec w.bits → Word) (rd rs1 : RegIdx) (offset : BitVec 12) (hd : i.dest? = some rd)
      (ht : i.isTransfer = false) (ha : accessOf i = some (false, w, rs1, offset))
      (h : exec i s = loadInto w ext rd rs1 offset s)
  | store (w : Width) (rs2 rs1 : RegIdx) (offset : BitVec 12) (hd : i.dest? = none) (ht : i.isTransfer = false)
      (ha : accessOf i = some (true, w, rs1, offset)) (h : exec i s = storeFrom w rs2 rs1 offset s)

theorem exec_shape (i : Instr) (s : State) : ExecShape i s := by
  cases i
  case jal => exact .jump _ _ rfl rfl rfl rfl
  case jalr => exact .jump _ _ rfl rfl rfl rfl
  case beq => exact .branch _ _ rfl rfl rfl rfl
  case bne => exact .branch _ _ rfl rfl rfl rfl
  case blt => exact .branch _ _ rfl rfl rfl rfl
  case bge => exact .branch _ _ rfl rfl rfl rfl
  case bltu => exact .branch _ _ rfl rfl rfl rfl
  case bgeu => exact .branch _ _ rfl rfl rfl rfl
  case lb => exact .load .byte _ _ _ _ rfl rfl rfl rfl
  case lh => exact .load .half _ _ _ _ rfl rfl rfl rfl
  case lbu => exact .load .byte _ _ _ _ rfl rfl rfl rfl
  case lhu => exact .load .half _ _ _ _ rfl rfl rfl rfl
  case lw => exact .load .word _ _ _ _ rfl rfl rfl rfl
  case sb => exact .store .byte _ _ _ rfl rfl rfl rfl
  case sh => exact .store .half _ _ _ rfl rfl rfl rfl
  case sw => exact .store .word _ _ _ rfl rfl rfl rfl
  all_goals exact .reg _ _ rfl rfl rfl rfl

/-! ### Fetch and step -/

/-- All that a fetch that succeeds says (R43). -/
theorem fetch_ok {s : State} {w : Word} (h : fetch s = .ok w) :
    s.pc.toNat % 4 = 0 ∧ s.image.contains s.pc.toNat = true ∧ s.image.contains (s.pc.toNat + 3) = true ∧
      s.image.words[(s.pc.toNat - s.image.base.toNat) / 4]? = some w := by
  unfold fetch at h
  split at h
  · cases h
  · next ha =>
    split at h
    · cases h
    · next hc =>
      split at h
      · next w' hw =>
        cases h
        have hc' : s.image.contains s.pc.toNat = true ∧ s.image.contains (s.pc.toNat + 3) = true := by simpa using hc
        exact ⟨(aligned4_iff _).1 (by simpa using ha), hc'.1, hc'.2, hw⟩
      · cases h

theorem countCompleted_next {o : Result} {t : State} (h : countCompleted o = .next t) :
    ∃ u, o = .next u ∧ t = u.countStep := by
  cases o with
  | next u => cases h; exact ⟨u, rfl, rfl⟩
  | fault f => cases h
  | refused r => cases h

/-- What a step that answers a next state did (R203, R234, R236). -/
theorem step_next {s t : State} (h : step s = .next t) :
    (s.status = .running ∧ s.pc = s.endPc ∧ t = s.withStatus .ended) ∨
    (s.status = .running ∧ s.pc ≠ s.endPc ∧ ∃ w i u, fetch s = .ok w ∧ decode w = .ok i ∧ exec i s = .next u ∧
      t = u.countStep) ∨
    (s.status = .ended ∧ t = s) := by
  unfold step at h
  split at h
  · next hs =>
    split at h
    · next hp => cases h; exact .inl ⟨hs, hp, rfl⟩
    · next hp =>
      obtain ⟨w, hw, hk⟩ := orRaise_next h
      split at hk
      · next i hi =>
        obtain ⟨u, hu, rfl⟩ := countCompleted_next hk
        exact .inr (.inl ⟨hs, hp, w, i, u, hw, hi, hu, rfl⟩)
      · cases hk
  · next hs => cases h; exact .inr (.inr ⟨hs, rfl⟩)
  · cases h

/-- A run goes on from the state its first step answers. -/
theorem run_succ_next {s t : State} (k : Nat) (h : step s = .next t) :
    Sys2Proof.core.run (k + 1) s = Sys2Proof.core.run k t := by
  have h' : Sys2Proof.core.step s = .next t := h
  simp [Host.Core.run, h']

/-- A run stops at its first fault (R200). -/
theorem run_succ_fault {s : State} {f : Fault} (k : Nat) (h : step s = .fault f) :
    Sys2Proof.core.run (k + 1) s = .fault f := by
  have h' : Sys2Proof.core.step s = .fault f := h
  simp [Host.Core.run, h']

end Sys2Proof.Machine
end

