-- ==== Sys2Proof/Laws/PerInstr.lean ====
section
/-! SUPPORT. Statements made per instruction: every instruction's word matches its own row of the opcode table. -/

namespace Sys2Proof.Laws

/-- The word of the instruction matches the row of spec/opcode_table.json that has its mnemonic (R234). -/
def EncodesRow.Statement (i : Instr) : Prop := ∃ r ∈ opcodeTable, r.mnemonic = i.mnemonic ∧ r.matchesWord (encode i) = true

/-- A row whose mask keeps `funct7`. -/
theorem matches_of_funct7 {name : String} {pat w : Word}
    (h : encR (funct7Field w) 0 0 (funct3Field w) 0 (opcodeField w) = pat) :
    (OpcodeRow.mk name 0xfe00707f#32 pat).matchesWord w = true := by
  rw [OpcodeRow.matchesWord, and_mask_funct7, h]; exact beq_self_eq_true _

/-- A row whose mask keeps `funct3`. -/
theorem matches_of_funct3 {name : String} {pat w : Word} (h : encR 0 0 0 (funct3Field w) 0 (opcodeField w) = pat) :
    (OpcodeRow.mk name 0x0000707f#32 pat).matchesWord w = true := by
  rw [OpcodeRow.matchesWord, and_mask_funct3, h]; exact beq_self_eq_true _

/-- A row whose mask keeps the opcode alone. -/
theorem matches_of_opcode {name : String} {pat w : Word} (h : encR 0 0 0 0 0 (opcodeField w) = pat) :
    (OpcodeRow.mk name 0x0000007f#32 pat).matchesWord w = true := by
  rw [OpcodeRow.matchesWord, and_mask_opcode, h]; exact beq_self_eq_true _

theorem EncodesRow.lui (rd : RegIdx) (imm20 : BitVec 20) : EncodesRow.Statement (.lui rd imm20) :=
  ⟨⟨"LUI", 0x0000007f#32, 0x00000037#32⟩, by decide, rfl, matches_of_opcode (by simp [encode]; rfl)⟩

theorem EncodesRow.auipc (rd : RegIdx) (imm20 : BitVec 20) : EncodesRow.Statement (.auipc rd imm20) :=
  ⟨⟨"AUIPC", 0x0000007f#32, 0x00000017#32⟩, by decide, rfl, matches_of_opcode (by simp [encode]; rfl)⟩

theorem EncodesRow.add (rd : RegIdx) (rs1 : RegIdx) (rs2 : RegIdx) : EncodesRow.Statement (.add rd rs1 rs2) :=
  ⟨⟨"ADD", 0xfe00707f#32, 0x00000033#32⟩, by decide, rfl, matches_of_funct7 (by simp [encode]; rfl)⟩

theorem EncodesRow.addi (rd : RegIdx) (rs1 : RegIdx) (imm : BitVec 12) : EncodesRow.Statement (.addi rd rs1 imm) :=
  ⟨⟨"ADDI", 0x0000707f#32, 0x00000013#32⟩, by decide, rfl, matches_of_funct3 (by simp [encode]; rfl)⟩

theorem EncodesRow.sub (rd : RegIdx) (rs1 : RegIdx) (rs2 : RegIdx) : EncodesRow.Statement (.sub rd rs1 rs2) :=
  ⟨⟨"SUB", 0xfe00707f#32, 0x40000033#32⟩, by decide, rfl, matches_of_funct7 (by simp [encode]; rfl)⟩

theorem EncodesRow.mul (rd : RegIdx) (rs1 : RegIdx) (rs2 : RegIdx) : EncodesRow.Statement (.mul rd rs1 rs2) :=
  ⟨⟨"MUL", 0xfe00707f#32, 0x02000033#32⟩, by decide, rfl, matches_of_funct7 (by simp [encode]; rfl)⟩

theorem EncodesRow.mulh (rd : RegIdx) (rs1 : RegIdx) (rs2 : RegIdx) : EncodesRow.Statement (.mulh rd rs1 rs2) :=
  ⟨⟨"MULH", 0xfe00707f#32, 0x02001033#32⟩, by decide, rfl, matches_of_funct7 (by simp [encode]; rfl)⟩

theorem EncodesRow.mulhsu (rd : RegIdx) (rs1 : RegIdx) (rs2 : RegIdx) : EncodesRow.Statement (.mulhsu rd rs1 rs2) :=
  ⟨⟨"MULHSU", 0xfe00707f#32, 0x02002033#32⟩, by decide, rfl, matches_of_funct7 (by simp [encode]; rfl)⟩

theorem EncodesRow.mulhu (rd : RegIdx) (rs1 : RegIdx) (rs2 : RegIdx) : EncodesRow.Statement (.mulhu rd rs1 rs2) :=
  ⟨⟨"MULHU", 0xfe00707f#32, 0x02003033#32⟩, by decide, rfl, matches_of_funct7 (by simp [encode]; rfl)⟩

theorem EncodesRow.div (rd : RegIdx) (rs1 : RegIdx) (rs2 : RegIdx) : EncodesRow.Statement (.div rd rs1 rs2) :=
  ⟨⟨"DIV", 0xfe00707f#32, 0x02004033#32⟩, by decide, rfl, matches_of_funct7 (by simp [encode]; rfl)⟩

theorem EncodesRow.divu (rd : RegIdx) (rs1 : RegIdx) (rs2 : RegIdx) : EncodesRow.Statement (.divu rd rs1 rs2) :=
  ⟨⟨"DIVU", 0xfe00707f#32, 0x02005033#32⟩, by decide, rfl, matches_of_funct7 (by simp [encode]; rfl)⟩

theorem EncodesRow.rem (rd : RegIdx) (rs1 : RegIdx) (rs2 : RegIdx) : EncodesRow.Statement (.rem rd rs1 rs2) :=
  ⟨⟨"REM", 0xfe00707f#32, 0x02006033#32⟩, by decide, rfl, matches_of_funct7 (by simp [encode]; rfl)⟩

theorem EncodesRow.remu (rd : RegIdx) (rs1 : RegIdx) (rs2 : RegIdx) : EncodesRow.Statement (.remu rd rs1 rs2) :=
  ⟨⟨"REMU", 0xfe00707f#32, 0x02007033#32⟩, by decide, rfl, matches_of_funct7 (by simp [encode]; rfl)⟩

theorem EncodesRow.xor (rd : RegIdx) (rs1 : RegIdx) (rs2 : RegIdx) : EncodesRow.Statement (.xor rd rs1 rs2) :=
  ⟨⟨"XOR", 0xfe00707f#32, 0x00004033#32⟩, by decide, rfl, matches_of_funct7 (by simp [encode]; rfl)⟩

theorem EncodesRow.xori (rd : RegIdx) (rs1 : RegIdx) (imm : BitVec 12) : EncodesRow.Statement (.xori rd rs1 imm) :=
  ⟨⟨"XORI", 0x0000707f#32, 0x00004013#32⟩, by decide, rfl, matches_of_funct3 (by simp [encode]; rfl)⟩

theorem EncodesRow.or (rd : RegIdx) (rs1 : RegIdx) (rs2 : RegIdx) : EncodesRow.Statement (.or rd rs1 rs2) :=
  ⟨⟨"OR", 0xfe00707f#32, 0x00006033#32⟩, by decide, rfl, matches_of_funct7 (by simp [encode]; rfl)⟩

theorem EncodesRow.ori (rd : RegIdx) (rs1 : RegIdx) (imm : BitVec 12) : EncodesRow.Statement (.ori rd rs1 imm) :=
  ⟨⟨"ORI", 0x0000707f#32, 0x00006013#32⟩, by decide, rfl, matches_of_funct3 (by simp [encode]; rfl)⟩

theorem EncodesRow.and (rd : RegIdx) (rs1 : RegIdx) (rs2 : RegIdx) : EncodesRow.Statement (.and rd rs1 rs2) :=
  ⟨⟨"AND", 0xfe00707f#32, 0x00007033#32⟩, by decide, rfl, matches_of_funct7 (by simp [encode]; rfl)⟩

theorem EncodesRow.andi (rd : RegIdx) (rs1 : RegIdx) (imm : BitVec 12) : EncodesRow.Statement (.andi rd rs1 imm) :=
  ⟨⟨"ANDI", 0x0000707f#32, 0x00007013#32⟩, by decide, rfl, matches_of_funct3 (by simp [encode]; rfl)⟩

theorem EncodesRow.sll (rd : RegIdx) (rs1 : RegIdx) (rs2 : RegIdx) : EncodesRow.Statement (.sll rd rs1 rs2) :=
  ⟨⟨"SLL", 0xfe00707f#32, 0x00001033#32⟩, by decide, rfl, matches_of_funct7 (by simp [encode]; rfl)⟩

theorem EncodesRow.slli (rd : RegIdx) (rs1 : RegIdx) (shamt : BitVec 5) : EncodesRow.Statement (.slli rd rs1 shamt) :=
  ⟨⟨"SLLI", 0xfe00707f#32, 0x00001013#32⟩, by decide, rfl, matches_of_funct7 (by simp [encode]; rfl)⟩

theorem EncodesRow.srl (rd : RegIdx) (rs1 : RegIdx) (rs2 : RegIdx) : EncodesRow.Statement (.srl rd rs1 rs2) :=
  ⟨⟨"SRL", 0xfe00707f#32, 0x00005033#32⟩, by decide, rfl, matches_of_funct7 (by simp [encode]; rfl)⟩

theorem EncodesRow.srli (rd : RegIdx) (rs1 : RegIdx) (shamt : BitVec 5) : EncodesRow.Statement (.srli rd rs1 shamt) :=
  ⟨⟨"SRLI", 0xfe00707f#32, 0x00005013#32⟩, by decide, rfl, matches_of_funct7 (by simp [encode]; rfl)⟩

theorem EncodesRow.sra (rd : RegIdx) (rs1 : RegIdx) (rs2 : RegIdx) : EncodesRow.Statement (.sra rd rs1 rs2) :=
  ⟨⟨"SRA", 0xfe00707f#32, 0x40005033#32⟩, by decide, rfl, matches_of_funct7 (by simp [encode]; rfl)⟩

theorem EncodesRow.srai (rd : RegIdx) (rs1 : RegIdx) (shamt : BitVec 5) : EncodesRow.Statement (.srai rd rs1 shamt) :=
  ⟨⟨"SRAI", 0xfe00707f#32, 0x40005013#32⟩, by decide, rfl, matches_of_funct7 (by simp [encode]; rfl)⟩

theorem EncodesRow.slt (rd : RegIdx) (rs1 : RegIdx) (rs2 : RegIdx) : EncodesRow.Statement (.slt rd rs1 rs2) :=
  ⟨⟨"SLT", 0xfe00707f#32, 0x00002033#32⟩, by decide, rfl, matches_of_funct7 (by simp [encode]; rfl)⟩

theorem EncodesRow.slti (rd : RegIdx) (rs1 : RegIdx) (imm : BitVec 12) : EncodesRow.Statement (.slti rd rs1 imm) :=
  ⟨⟨"SLTI", 0x0000707f#32, 0x00002013#32⟩, by decide, rfl, matches_of_funct3 (by simp [encode]; rfl)⟩

theorem EncodesRow.sltiu (rd : RegIdx) (rs1 : RegIdx) (imm : BitVec 12) : EncodesRow.Statement (.sltiu rd rs1 imm) :=
  ⟨⟨"SLTIU", 0x0000707f#32, 0x00003013#32⟩, by decide, rfl, matches_of_funct3 (by simp [encode]; rfl)⟩

theorem EncodesRow.sltu (rd : RegIdx) (rs1 : RegIdx) (rs2 : RegIdx) : EncodesRow.Statement (.sltu rd rs1 rs2) :=
  ⟨⟨"SLTU", 0xfe00707f#32, 0x00003033#32⟩, by decide, rfl, matches_of_funct7 (by simp [encode]; rfl)⟩

theorem EncodesRow.jal (rd : RegIdx) (offset : BitVec 21) : EncodesRow.Statement (.jal rd offset) :=
  ⟨⟨"JAL", 0x0000007f#32, 0x0000006f#32⟩, by decide, rfl, matches_of_opcode (by simp [encode]; rfl)⟩

theorem EncodesRow.jalr (rd : RegIdx) (rs1 : RegIdx) (offset : BitVec 12) : EncodesRow.Statement (.jalr rd rs1 offset) :=
  ⟨⟨"JALR", 0x0000707f#32, 0x00000067#32⟩, by decide, rfl, matches_of_funct3 (by simp [encode]; rfl)⟩

theorem EncodesRow.beq (rs1 : RegIdx) (rs2 : RegIdx) (offset : BitVec 13) : EncodesRow.Statement (.beq rs1 rs2 offset) :=
  ⟨⟨"BEQ", 0x0000707f#32, 0x00000063#32⟩, by decide, rfl, matches_of_funct3 (by simp [encode]; rfl)⟩

theorem EncodesRow.bne (rs1 : RegIdx) (rs2 : RegIdx) (offset : BitVec 13) : EncodesRow.Statement (.bne rs1 rs2 offset) :=
  ⟨⟨"BNE", 0x0000707f#32, 0x00001063#32⟩, by decide, rfl, matches_of_funct3 (by simp [encode]; rfl)⟩

theorem EncodesRow.blt (rs1 : RegIdx) (rs2 : RegIdx) (offset : BitVec 13) : EncodesRow.Statement (.blt rs1 rs2 offset) :=
  ⟨⟨"BLT", 0x0000707f#32, 0x00004063#32⟩, by decide, rfl, matches_of_funct3 (by simp [encode]; rfl)⟩

theorem EncodesRow.bge (rs1 : RegIdx) (rs2 : RegIdx) (offset : BitVec 13) : EncodesRow.Statement (.bge rs1 rs2 offset) :=
  ⟨⟨"BGE", 0x0000707f#32, 0x00005063#32⟩, by decide, rfl, matches_of_funct3 (by simp [encode]; rfl)⟩

theorem EncodesRow.bltu (rs1 : RegIdx) (rs2 : RegIdx) (offset : BitVec 13) : EncodesRow.Statement (.bltu rs1 rs2 offset) :=
  ⟨⟨"BLTU", 0x0000707f#32, 0x00006063#32⟩, by decide, rfl, matches_of_funct3 (by simp [encode]; rfl)⟩

theorem EncodesRow.bgeu (rs1 : RegIdx) (rs2 : RegIdx) (offset : BitVec 13) : EncodesRow.Statement (.bgeu rs1 rs2 offset) :=
  ⟨⟨"BGEU", 0x0000707f#32, 0x00007063#32⟩, by decide, rfl, matches_of_funct3 (by simp [encode]; rfl)⟩

theorem EncodesRow.lb (rd : RegIdx) (rs1 : RegIdx) (offset : BitVec 12) : EncodesRow.Statement (.lb rd rs1 offset) :=
  ⟨⟨"LB", 0x0000707f#32, 0x00000003#32⟩, by decide, rfl, matches_of_funct3 (by simp [encode]; rfl)⟩

theorem EncodesRow.lh (rd : RegIdx) (rs1 : RegIdx) (offset : BitVec 12) : EncodesRow.Statement (.lh rd rs1 offset) :=
  ⟨⟨"LH", 0x0000707f#32, 0x00001003#32⟩, by decide, rfl, matches_of_funct3 (by simp [encode]; rfl)⟩

theorem EncodesRow.lbu (rd : RegIdx) (rs1 : RegIdx) (offset : BitVec 12) : EncodesRow.Statement (.lbu rd rs1 offset) :=
  ⟨⟨"LBU", 0x0000707f#32, 0x00004003#32⟩, by decide, rfl, matches_of_funct3 (by simp [encode]; rfl)⟩

theorem EncodesRow.lhu (rd : RegIdx) (rs1 : RegIdx) (offset : BitVec 12) : EncodesRow.Statement (.lhu rd rs1 offset) :=
  ⟨⟨"LHU", 0x0000707f#32, 0x00005003#32⟩, by decide, rfl, matches_of_funct3 (by simp [encode]; rfl)⟩

theorem EncodesRow.lw (rd : RegIdx) (rs1 : RegIdx) (offset : BitVec 12) : EncodesRow.Statement (.lw rd rs1 offset) :=
  ⟨⟨"LW", 0x0000707f#32, 0x00002003#32⟩, by decide, rfl, matches_of_funct3 (by simp [encode]; rfl)⟩

theorem EncodesRow.sb (rs2 : RegIdx) (rs1 : RegIdx) (offset : BitVec 12) : EncodesRow.Statement (.sb rs2 rs1 offset) :=
  ⟨⟨"SB", 0x0000707f#32, 0x00000023#32⟩, by decide, rfl, matches_of_funct3 (by simp [encode]; rfl)⟩

theorem EncodesRow.sh (rs2 : RegIdx) (rs1 : RegIdx) (offset : BitVec 12) : EncodesRow.Statement (.sh rs2 rs1 offset) :=
  ⟨⟨"SH", 0x0000707f#32, 0x00001023#32⟩, by decide, rfl, matches_of_funct3 (by simp [encode]; rfl)⟩

theorem EncodesRow.sw (rs2 : RegIdx) (rs1 : RegIdx) (offset : BitVec 12) : EncodesRow.Statement (.sw rs2 rs1 offset) :=
  ⟨⟨"SW", 0x0000707f#32, 0x00002023#32⟩, by decide, rfl, matches_of_funct3 (by simp [encode]; rfl)⟩

end Sys2Proof.Laws
end

