-- ==== Sys2Proof/Tests/Slice0.lean ====
section
/-! SUPPORT. The tests: ill-formed terms refused, words written out from the encodings of 30_encoding.md and 95_test_vectors.md
section 1, single steps whose expected results are the vectors of 95_test_vectors.md section 2, and one witness for the
hypotheses of each obligation. -/

namespace Sys2Proof.Tests

open Sys2Proof.Machine

/-! ### Ill-formed terms (R66, R68: bit 0 of the offset is 0) -/

theorem test_wellFormed_refuses_odd_jal : Instr.wellFormed (.jal 1 9#21) = false ∧
    Instr.wellFormed (.jal 1 8#21) = true := by
  decide

theorem test_wellFormed_refuses_odd_beq : Instr.wellFormed (.beq 1 2 17#13) = false ∧
    Instr.wellFormed (.beq 1 2 16#13) = true := by decide

theorem test_wellFormed_refuses_odd_bne : Instr.wellFormed (.bne 1 2 17#13) = false ∧
    Instr.wellFormed (.bne 1 2 16#13) = true := by decide

theorem test_wellFormed_refuses_odd_blt : Instr.wellFormed (.blt 1 2 17#13) = false ∧
    Instr.wellFormed (.blt 1 2 16#13) = true := by decide

theorem test_wellFormed_refuses_odd_bge : Instr.wellFormed (.bge 1 2 17#13) = false ∧
    Instr.wellFormed (.bge 1 2 16#13) = true := by decide

theorem test_wellFormed_refuses_odd_bltu : Instr.wellFormed (.bltu 1 2 17#13) = false ∧
    Instr.wellFormed (.bltu 1 2 16#13) = true := by decide

theorem test_wellFormed_refuses_odd_bgeu : Instr.wellFormed (.bgeu 1 2 17#13) = false ∧
    Instr.wellFormed (.bgeu 1 2 16#13) = true := by decide

/-! ### Decoding: every constructor, each word written out bit by bit from its row of 95_test_vectors.md section 1 -/

theorem test_decode_load_constant :
    decode 0b00010010001101000101_00101_0110111#32 = .ok (.lui 5 0x12345#20) ∧
    decode 0b11111111111111111111_00110_0010111#32 = .ok (.auipc 6 0xFFFFF#20) := by decide

theorem test_decode_arithmetic :
    decode 0b0000000_00010_00001_000_00011_0110011#32 = .ok (.add 3 1 2) ∧
    decode 0b100000000000_00001_000_00011_0010011#32 = .ok (.addi 3 1 0x800#12) ∧
    decode 0b0100000_00010_00001_000_00011_0110011#32 = .ok (.sub 3 1 2) := by decide

theorem test_decode_multiply_divide :
    decode 0b0000001_00010_00001_000_00011_0110011#32 = .ok (.mul 3 1 2) ∧
    decode 0b0000001_00010_00001_001_00011_0110011#32 = .ok (.mulh 3 1 2) ∧
    decode 0b0000001_00010_00001_010_00011_0110011#32 = .ok (.mulhsu 3 1 2) ∧
    decode 0b0000001_00010_00001_011_00011_0110011#32 = .ok (.mulhu 3 1 2) ∧
    decode 0b0000001_00010_00001_100_00011_0110011#32 = .ok (.div 3 1 2) ∧
    decode 0b0000001_00010_00001_101_00011_0110011#32 = .ok (.divu 3 1 2) ∧
    decode 0b0000001_00010_00001_110_00011_0110011#32 = .ok (.rem 3 1 2) ∧
    decode 0b0000001_00010_00001_111_00011_0110011#32 = .ok (.remu 3 1 2) := by decide

theorem test_decode_boolean :
    decode 0b0000000_00010_00001_100_00011_0110011#32 = .ok (.xor 3 1 2) ∧
    decode 0b111111111111_00001_100_00011_0010011#32 = .ok (.xori 3 1 0xFFF#12) ∧
    decode 0b0000000_00010_00001_110_00011_0110011#32 = .ok (.or 3 1 2) ∧
    decode 0b000011111111_00001_110_00011_0010011#32 = .ok (.ori 3 1 0x0FF#12) ∧
    decode 0b0000000_00010_00001_111_00011_0110011#32 = .ok (.and 3 1 2) ∧
    decode 0b011111111111_00001_111_00011_0010011#32 = .ok (.andi 3 1 0x7FF#12) := by decide

theorem test_decode_shift :
    decode 0b0000000_00010_00001_001_00011_0110011#32 = .ok (.sll 3 1 2) ∧
    decode 0b0000000_11111_00001_001_00011_0010011#32 = .ok (.slli 3 1 31#5) ∧
    decode 0b0000000_00010_00001_101_00011_0110011#32 = .ok (.srl 3 1 2) ∧
    decode 0b0000000_00100_00001_101_00011_0010011#32 = .ok (.srli 3 1 4#5) ∧
    decode 0b0100000_00010_00001_101_00011_0110011#32 = .ok (.sra 3 1 2) ∧
    decode 0b0100000_10000_00001_101_00011_0010011#32 = .ok (.srai 3 1 16#5) := by decide

theorem test_decode_compare :
    decode 0b0000000_00010_00001_010_00011_0110011#32 = .ok (.slt 3 1 2) ∧
    decode 0b111111111111_00001_010_00011_0010011#32 = .ok (.slti 3 1 0xFFF#12) ∧
    decode 0b000000000001_00001_011_00011_0010011#32 = .ok (.sltiu 3 1 1#12) ∧
    decode 0b0000000_00010_00001_011_00011_0110011#32 = .ok (.sltu 3 1 2) := by decide

theorem test_decode_jump :
    decode 0b0_0000000000_1_00000000_00001_1101111#32 = .ok (.jal 1 2048#21) ∧
    decode 0b0_0000000000_0_00000001_00001_1101111#32 = .ok (.jal 1 4096#21) ∧
    decode 0b1_0000000000_0_00000000_00001_1101111#32 = .ok (.jal 1 0x100000#21) ∧
    decode 0b111111111100_00001_000_00011_1100111#32 = .ok (.jalr 3 1 0xFFC#12) := by decide

theorem test_decode_branch :
    decode 0b1_000000_00010_00001_000_0000_0_1100011#32 = .ok (.beq 1 2 0x1000#13) ∧
    decode 0b0_111111_00010_00001_001_1111_0_1100011#32 = .ok (.bne 1 2 0x7fe#13) ∧
    decode 0b1_000000_00010_00001_100_0000_1_1100011#32 = .ok (.blt 1 2 0x1800#13) ∧
    decode 0b0_000000_00010_00001_101_1000_0_1100011#32 = .ok (.bge 1 2 0x10#13) ∧
    decode 0b0_000000_00010_00001_110_0000_1_1100011#32 = .ok (.bltu 1 2 0x800#13) ∧
    decode 0b0_000001_00010_00001_111_0000_0_1100011#32 = .ok (.bgeu 1 2 0x20#13) := by decide

theorem test_decode_load :
    decode 0b000000000111_00001_000_00011_0000011#32 = .ok (.lb 3 1 0x7#12) ∧
    decode 0b000000000010_00001_001_00011_0000011#32 = .ok (.lh 3 1 0x2#12) ∧
    decode 0b011111111111_00001_100_00011_0000011#32 = .ok (.lbu 3 1 0x7ff#12) ∧
    decode 0b111111111110_00001_101_00011_0000011#32 = .ok (.lhu 3 1 0xffe#12) ∧
    decode 0b111111111100_00001_010_00011_0000011#32 = .ok (.lw 3 1 0xffc#12) := by decide

theorem test_decode_store :
    decode 0b0111111_00010_00001_000_11111_0100011#32 = .ok (.sb 2 1 0x7ff#12) ∧
    decode 0b0000000_00010_00001_001_00110_0100011#32 = .ok (.sh 2 1 0x6#12) ∧
    decode 0b1111111_00010_00001_010_11100_0100011#32 = .ok (.sw 2 1 0xffc#12) := by decide

/-- The illegal words of 95_test_vectors.md section 2.12, each refused by name. -/
theorem test_decode_refuses_illegal_words :
    ∀ w ∈ [0x00000000#32, 0xFFFFFFFF#32, 0x00000073#32, 0x00100073#32, 0x0FF0000F#32, 0x02009193#32,
      0x4020C1B3#32, 0x0420C1B3#32, 0x0000B183#32, 0x0020B023#32, 0x0020A863#32, 0x000290E7#32],
      decode w = .error (.illegalInstruction w) := by
  intro w hw
  fin_cases hw <;> rfl

/-- Bytes in the order the machine stores them (R34), fewer than four, and the host's numbering of a word's bits. -/
theorem test_decode_bytes : decodeBytes [0xB7#8, 0x52#8, 0x34#8, 0x12#8] = .ok (.lui 5 0x12345#20, []) ∧
    decodeBytes [0xB7#8, 0x52#8, 0x34#8] = .error .truncated ∧ decodeTableWord 32 0x123452B7 = some (.lui 5 0x12345#20) ∧
    decodeTableWord 32 0x73 = none := by decide

/-- Words of 95_test_vectors.md section 2 from the encoder. -/
theorem test_encode : encode (.addi 1 0 (-1)) = 0xFFF00093#32 ∧ encode (.jal 0 (-8)) = 0xFF9FF06F#32 ∧
    encode (.bne 1 2 2046#13) = 0x7E209F63#32 ∧ encode (.sb 2 1 2047#12) = 0x7E208FA3#32 ∧
    encode (.srai 3 1 31#5) = 0x41F0D193#32 ∧ encode (.auipc 6 0xFFFFF#20) = 0xFFFFF317#32 := by decide

/-! ### Single steps (95_test_vectors.md section 2) -/

/-- A running state with the given `pc`, registers (the others as after reset) and bytes of memory. -/
def stateOf (pc : Word) (regs : List (RegIdx × Word)) (mem : Memory) : State :=
  regs.foldl (fun s p => s.writeReg p.1 p.2) { State.reset with pc := pc, mem := mem }

/-- One step of a state at `0x1000` with the word placed at `pc`. -/
def stepOn (w : Nat) (regs : List (RegIdx × Word)) (mem : Memory) : Result :=
  step ((stateOf 0x1000#32 regs mem).withFetchWord 32 w)

/-- One step at another `pc`. -/
def stepAt (pc : Word) (w : Nat) (regs : List (RegIdx × Word)) : Result :=
  step ((stateOf pc regs []).withFetchWord 32 w)

/-- A register and `pc` after a step. -/
def outReg (r : RegIdx) (o : Result) : Option (Word × Word) :=
  match o with
  | .next t => some (t.readReg r, t.pc)
  | .fault _ => none
  | .refused _ => none

/-- The memory after a step. -/
def outMem (o : Result) : Option Memory :=
  match o with
  | .next t => some t.mem
  | .fault _ => none
  | .refused _ => none

/-- The fault of a step. -/
def outFault (o : Result) : Option Fault :=
  match o with
  | .next _ => none
  | .fault f => some f
  | .refused _ => none

/-- `MEM_INIT` of section 2.10. -/
def loadBytes : Memory := [(0x2000, 0xEF#8), (0x2001, 0xCD#8), (0x2002, 0xAB#8), (0x2003, 0x89#8), (0x2004, 0x7F#8),
  (0x2005, 0x80#8), (0x2006, 0x00#8), (0x2007, 0xFF#8)]

/-- `MEM_INIT` of section 2.11, its first four bytes. -/
def storeBytes : Memory := [(0x3000, 0x11#8), (0x3001, 0x22#8), (0x3002, 0x33#8), (0x3003, 0x44#8)]

theorem test_lui_high : outReg 5 (stepOn 0xFFFFF2B7 [] []) =
    some (0xFFFFF000#32, 0x00001004#32) := by decide

theorem test_lui_to_x0 : outReg 0 (stepOn 0xFFFFF037 [] []) =
    some (0x00000000#32, 0x00001004#32) := by decide

theorem test_auipc_wraps : outReg 6 (stepAt 0xFFFFF000#32 0x00001317 []) =
    some (0x00000000#32, 0xFFFFF004#32) := by decide

theorem test_add_wraps : outReg 3 (stepOn 0x002081B3 [(1, 0xFFFFFFFF#32), (2, 0x00000001#32)] []) =
    some (0x00000000#32, 0x00001004#32) := by decide

theorem test_add_same_register : outReg 1 (stepOn 0x001080B3 [(1, 0x40000000#32)] []) =
    some (0x80000000#32, 0x00001004#32) := by decide

theorem test_addi_negative : outReg 1 (stepOn 0x80008093 [(1, 0x00000000#32)] []) =
    some (0xFFFFF800#32, 0x00001004#32) := by decide

theorem test_addi_nop : outReg 1 (stepOn 0x00000013 [(1, 0x12345678#32)] []) =
    some (0x12345678#32, 0x00001004#32) := by decide

theorem test_sub_borrows : outReg 3 (stepOn 0x402081B3 [(1, 0x00000005#32), (2, 0x00000007#32)] []) =
    some (0xFFFFFFFE#32, 0x00001004#32) := by decide

theorem test_mul_low : outReg 3 (stepOn 0x022081B3 [(1, 0x12345678#32), (2, 0x9ABCDEF0#32)] []) =
    some (0x242D2080#32, 0x00001004#32) := by decide

theorem test_mulh_signed : outReg 3 (stepOn 0x022091B3 [(1, 0x12345678#32), (2, 0x9ABCDEF0#32)] []) =
    some (0xF8CC93D6#32, 0x00001004#32) := by decide

theorem test_mulhsu_first_signed : outReg 3 (stepOn 0x0220A1B3 [(1, 0x80000000#32), (2, 0xFFFFFFFF#32)] []) =
    some (0x80000000#32, 0x00001004#32) := by decide

theorem test_mulhsu_second_unsigned : outReg 3 (stepOn 0x0220A1B3 [(1, 0xFFFFFFFF#32), (2, 0x80000000#32)] []) =
    some (0xFFFFFFFF#32, 0x00001004#32) := by decide

theorem test_mulhu_unsigned : outReg 3 (stepOn 0x0220B1B3 [(1, 0xFFFFFFFF#32), (2, 0xFFFFFFFF#32)] []) =
    some (0xFFFFFFFE#32, 0x00001004#32) := by decide

theorem test_div_toward_zero : outReg 3 (stepOn 0x0220C1B3 [(1, 0xFFFFFFF9#32), (2, 0x00000002#32)] []) =
    some (0xFFFFFFFD#32, 0x00001004#32) := by decide

theorem test_div_overflow_corner : outReg 3 (stepOn 0x0220C1B3 [(1, 0x80000000#32), (2, 0xFFFFFFFF#32)] []) =
    some (0x80000000#32, 0x00001004#32) := by decide

theorem test_divu_unsigned : outReg 3 (stepOn 0x0220D1B3 [(1, 0xFFFFFFF9#32), (2, 0x00000002#32)] []) =
    some (0x7FFFFFFC#32, 0x00001004#32) := by decide

theorem test_rem_sign_of_dividend : outReg 3 (stepOn 0x0220E1B3 [(1, 0xFFFFFFF9#32), (2, 0x00000002#32)] []) =
    some (0xFFFFFFFF#32, 0x00001004#32) := by decide

theorem test_rem_zero_corner : outReg 3 (stepOn 0x0220E1B3 [(1, 0x80000000#32), (2, 0x00000000#32)] []) =
    some (0x80000000#32, 0x00001004#32) := by decide

theorem test_remu_unsigned : outReg 3 (stepOn 0x0220F1B3 [(1, 0xFFFFFFF9#32), (2, 0xFFFFFFFE#32)] []) =
    some (0xFFFFFFF9#32, 0x00001004#32) := by decide

theorem test_xor : outReg 3 (stepOn 0x0020C1B3 [(1, 0x0F0F0F0F#32), (2, 0x00FF00FF#32)] []) =
    some (0x0FF00FF0#32, 0x00001004#32) := by decide

theorem test_xori_minus_one : outReg 3 (stepOn 0xFFF0C193 [(1, 0x0F0F0F0F#32)] []) =
    some (0xF0F0F0F0#32, 0x00001004#32) := by decide

theorem test_or : outReg 3 (stepOn 0x0020E1B3 [(1, 0x0F0F0F0F#32), (2, 0x00FF00FF#32)] []) =
    some (0x0FFF0FFF#32, 0x00001004#32) := by decide

theorem test_ori_negative : outReg 3 (stepOn 0x8000E193 [(1, 0x12345678#32)] []) =
    some (0xFFFFFE78#32, 0x00001004#32) := by decide

theorem test_and : outReg 3 (stepOn 0x0020F1B3 [(1, 0x0F0F0F0F#32), (2, 0x00FF00FF#32)] []) =
    some (0x000F000F#32, 0x00001004#32) := by decide

theorem test_andi_is_and : outReg 3 (stepOn 0x0FF0F193 [(1, 0x0F0F0F0F#32)] []) =
    some (0x0000000F#32, 0x00001004#32) := by decide

theorem test_sll_amount_mod_32 : outReg 3 (stepOn 0x002091B3 [(1, 0x80000001#32), (2, 0x00000021#32)] []) =
    some (0x00000002#32, 0x00001004#32) := by decide

theorem test_slli_31 : outReg 3 (stepOn 0x01F09193 [(1, 0x80000001#32)] []) =
    some (0x80000000#32, 0x00001004#32) := by decide

theorem test_srl_zero_fill : outReg 3 (stepOn 0x0020D1B3 [(1, 0x80000001#32), (2, 0xFFFFFFE4#32)] []) =
    some (0x08000000#32, 0x00001004#32) := by decide

theorem test_srli : outReg 3 (stepOn 0x0100D193 [(1, 0xFFFFFFFF#32)] []) =
    some (0x0000FFFF#32, 0x00001004#32) := by decide

theorem test_sra_sign_fill : outReg 3 (stepOn 0x4020D1B3 [(1, 0x80000001#32), (2, 0xFFFFFFE4#32)] []) =
    some (0xF8000000#32, 0x00001004#32) := by decide

theorem test_srai_31 : outReg 3 (stepOn 0x41F0D193 [(1, 0x80000001#32)] []) =
    some (0xFFFFFFFF#32, 0x00001004#32) := by decide

theorem test_slt_signed : outReg 3 (stepOn 0x0020A1B3 [(1, 0x80000000#32), (2, 0x7FFFFFFF#32)] []) =
    some (0x00000001#32, 0x00001004#32) := by decide

theorem test_slti_sign_extends : outReg 3 (stepOn 0x8000A193 [(1, 0xFFFFF800#32)] []) =
    some (0x00000000#32, 0x00001004#32) := by decide

theorem test_sltiu_sign_extends : outReg 3 (stepOn 0xFFF0B193 [(1, 0xFFFFFFFE#32)] []) =
    some (0x00000001#32, 0x00001004#32) := by decide

theorem test_sltu_unsigned : outReg 3 (stepOn 0x0020B1B3 [(1, 0x80000000#32), (2, 0x7FFFFFFF#32)] []) =
    some (0x00000000#32, 0x00001004#32) := by decide

theorem test_jal_wraps : outReg 1 (stepAt 0xFFFFFFFC#32 0x004000EF []) =
    some (0x00000000#32, 0x00000000#32) := by decide

theorem test_jal_misaligned : outFault (stepOn 0x002002EF [] []) =
    some (.misalignedFetch 0x00001002#32) := by decide

theorem test_jalr_same_register : outReg 1 (stepOn 0xFFC080E7 [(1, 0x00002004#32)] []) =
    some (0x00001004#32, 0x00002000#32) := by decide

theorem test_jalr_misaligned : outFault (stepOn 0x003280E7 [(5, 0x00002000#32)] []) =
    some (.misalignedFetch 0x00002002#32) := by decide

theorem test_beq_backward : outReg 0 (stepAt 0x00000004#32 0xFE000CE3 []) =
    some (0x00000000#32, 0xFFFFFFFC#32) := by decide

theorem test_beq_misaligned : outFault (stepOn 0x00000163 [] []) =
    some (.misalignedFetch 0x00001002#32) := by decide

theorem test_bne_taken : outReg 1 (stepOn 0x00209863 [(1, 0x80000000#32), (2, 0x7FFFFFFF#32)] []) =
    some (0x80000000#32, 0x00001010#32) := by decide

theorem test_bne_not_taken_never_faults : outReg 0 (stepOn 0x00001163 [] []) =
    some (0x00000000#32, 0x00001004#32) := by decide

theorem test_blt_signed : outReg 1 (stepOn 0x0020C863 [(1, 0x80000000#32), (2, 0x7FFFFFFF#32)] []) =
    some (0x80000000#32, 0x00001010#32) := by decide

theorem test_bge_equal : outReg 1 (stepOn 0x0010D463 [(1, 0x80000000#32)] []) =
    some (0x80000000#32, 0x00001008#32) := by decide

theorem test_bltu_unsigned : outReg 1 (stepOn 0x0020E863 [(1, 0x80000000#32), (2, 0x7FFFFFFF#32)] []) =
    some (0x80000000#32, 0x00001004#32) := by decide

theorem test_bgeu_unsigned : outReg 1 (stepOn 0x0020F863 [(1, 0x80000000#32), (2, 0x7FFFFFFF#32)] []) =
    some (0x80000000#32, 0x00001010#32) := by decide

theorem test_lb_sign_extends : outReg 3 (stepOn 0x00508183 [(1, 0x00002000#32)] loadBytes) =
    some (0xFFFFFF80#32, 0x00001004#32) := by decide

theorem test_lbu_zero_extends : outReg 3 (stepOn 0x0050C183 [(1, 0x00002000#32)] loadBytes) =
    some (0x00000080#32, 0x00001004#32) := by decide

theorem test_lh_sign_extends : outReg 3 (stepOn 0x00409183 [(1, 0x00002000#32)] loadBytes) =
    some (0xFFFF807F#32, 0x00001004#32) := by decide

theorem test_lh_misaligned : outFault (stepOn 0x00109183 [(1, 0x00002000#32)] loadBytes) =
    some (.misalignedAccess 0x00002001#32) := by decide

theorem test_lhu_zero_extends : outReg 3 (stepOn 0x0020D183 [(1, 0x00002000#32)] loadBytes) =
    some (0x000089AB#32, 0x00001004#32) := by decide

theorem test_lw_base_is_destination : outReg 1 (stepOn 0x0000A083 [(1, 0x00002000#32)] loadBytes) =
    some (0x89ABCDEF#32, 0x00001004#32) := by decide

theorem test_lw_to_x0_still_faults : outFault (stepOn 0x0000A003 [(1, 0x00002001#32)] loadBytes) =
    some (.misalignedAccess 0x00002001#32) := by decide

theorem test_sb_low_byte : outMem (stepOn 0x002081A3 [(1, 0x00003000#32), (2, 0xDEADBEEF#32)] storeBytes) =
    some [(0x3000, 0x11#8), (0x3001, 0x22#8), (0x3002, 0x33#8), (0x3003, 0xEF#8)] := by decide

theorem test_sh_low_half : outMem (stepOn 0x00209123 [(1, 0x00003000#32), (2, 0xDEADBEEF#32)] storeBytes) =
    some [(0x3000, 0x11#8), (0x3001, 0x22#8), (0x3002, 0xEF#8), (0x3003, 0xBE#8)] := by decide

theorem test_sh_misaligned : outFault (stepOn 0x002090A3 [(1, 0x00003000#32), (2, 0xDEADBEEF#32)] storeBytes) =
    some (.misalignedAccess 0x00003001#32) := by decide

theorem test_sw_little_endian : outMem (stepOn 0x0020A023 [(1, 0x00003000#32), (2, 0xDEADBEEF#32)] storeBytes) =
    some [(0x3000, 0xEF#8), (0x3001, 0xBE#8), (0x3002, 0xAD#8), (0x3003, 0xDE#8)] := by decide

theorem test_sw_base_is_data : outMem (stepOn 0xFE10AE23 [(1, 0x00003004#32)] storeBytes) =
    some [(0x3000, 0x04#8), (0x3001, 0x30#8), (0x3002, 0x00#8), (0x3003, 0x00#8)] := by decide

theorem test_sw_into_image : outFault (stepOn 0x0020A023 [(1, 0x00001000#32)] []) =
    some (.imageAccess 0x00001000#32) := by decide

/-- A byte that nothing has written (section 2.10: never 0; notes/assumptions/3.md and 4.md). -/
theorem test_unwritten_read : outFault (stepOn 0x0080A183 [(1, 0x00002000#32)] loadBytes) =
    some (.unwrittenRead 0x00002008#32) := by decide

/-- The launch of 95_test_vectors.md P6 is accepted, and with nothing placed it is the machine after reset. -/
theorem test_launch : launch
    { resetPc := 0x1000#32, endPc := 0x1000#32, image := ⟨0x1000#32, []⟩, memInit := [],
      regs := regsFilled 0xA5A5A5A4#32 } = .ok State.reset := rfl

/-! ### Witnesses: for each obligation with hypotheses, states and operands that meet all of them -/

theorem witness_DecodeEncodeRoundTrip :
    Instr.wellFormed (.bgeu 31 0 0x1000#13) = true ∧ Instr.wellFormed (.jal 31 0x1FFFFE#21) = true := by decide

theorem witness_EncodeDecodeRoundTrip :
    decode 0x80000063#32 = .ok (.beq 0 0 0x1000#13) := by decide

theorem witness_DecodeFollowsOpcodeTable :
    decode 0x4000D193#32 = .ok (.srai 3 1 0#5) ∧
    ∃ r ∈ opcodeTable, r.matchesWord 0x4000D193#32 = true ∧ r.mnemonic = "SRAI" := by decide

theorem witness_OpcodeRowsDisjoint :
    ∃ r ∈ opcodeTable, r.matchesWord 0x0000006F#32 = true := by decide

/-- A running state with the word placed at `pc`, before the step. -/
def placed (w : Nat) (regs : List (RegIdx × Word)) (mem : Memory) : State :=
  (stateOf 0x1000#32 regs mem).withFetchWord 32 w

theorem witness_IllegalEncodingsFault :
    (∀ r ∈ opcodeTable, r.matchesWord 0x00000073#32 = false) ∧ (placed 0x73 [] []).status = .running ∧
    (placed 0x73 [] []).pc ≠ (placed 0x73 [] []).endPc ∧ fetch (placed 0x73 [] []) = .ok 0x00000073#32 := by decide

/-- One illegal word for each way a word is illegal (R75). -/
theorem witness_IllegalEncodingsFault_kinds :
    ∀ w ∈ [0x0420C1B3#32, 0x4020C1B3#32, 0x02009193#32, 0x0200D193#32, 0x0000B183#32, 0x0020B023#32, 0x0020A863#32,
      0x000290E7#32, 0x0FF0000F#32], ∀ r ∈ opcodeTable, r.matchesWord w = false := by
  intro w hw
  fin_cases hw <;> decide

theorem witness_ImmediatesOfTheFormats :
    (decode 0x80008193#32 = .ok (.addi 3 1 0x800#12) ∧ Instr.format (.addi 3 1 0x800#12) = .i ∧
      immediate32 (.addi 3 1 0x800#12) = some 0xFFFFF800#32) ∧
    (decode 0x7E208FA3#32 = .ok (.sb 2 1 0x7FF#12) ∧ Instr.format (.sb 2 1 0x7FF#12) = .s ∧
      immediate32 (.sb 2 1 0x7FF#12) = some 0x000007FF#32) ∧
    (decode 0x80000063#32 = .ok (.beq 0 0 0x1000#13) ∧ Instr.format (.beq 0 0 0x1000#13) = .b ∧
      immediate32 (.beq 0 0 0x1000#13) = some 0xFFFFF000#32) ∧
    (decode 0xFFFFF2B7#32 = .ok (.lui 5 0xFFFFF#20) ∧ Instr.format (.lui 5 0xFFFFF#20) = .u ∧
      immediate32 (.lui 5 0xFFFFF#20) = some 0xFFFFF000#32) ∧
    (decode 0x800000EF#32 = .ok (.jal 1 0x100000#21) ∧ Instr.format (.jal 1 0x100000#21) = .j ∧
      immediate32 (.jal 1 0x100000#21) = some 0xFFF00000#32) := by decide

theorem witness_LittleEndianInstructionBytes :
    ([0x13#8, 0x00#8, 0x00#8] : List Byte).length < 4 := by decide

theorem witness_ZeroRegister :
    Instr.dest? (.lw 0 1 0#12) = some 0 ∧ ∃ t, exec (.lw 0 1 0#12) (placed 0x0000A003 [(1, 0x2000#32)] loadBytes) = .next t := ⟨by decide, _, rfl⟩

/-- A running state whose `MEM_VALID` is `0x2000` to `0x2006`, with two bytes of value. -/
def narrow : State :=
  { placed 0x13 [(1, 0x2000#32), (2, 0xDEADBEEF#32)] [(0x2000, 0x34#8), (0x2001, 0x12#8)] with memValid := [⟨0x2000, 7⟩] }

/-- One address for each outcome of `MemRead` and `MemWrite`, at the edges of the ranges: misaligned, in the image,
outside `MEM_VALID`, a byte with no value, and a value. -/
theorem witness_MemReadChecksThenValue :
    ((0x2001#32).toNat % Width.half.bytes ≠ 0) ∧
    ((0x1002#32).toNat % Width.half.bytes = 0 ∧
      ∃ k < Width.half.bytes, narrow.image.contains ((0x1002#32).toNat + k) = true) ∧
    ((0x2006#32).toNat % Width.half.bytes = 0 ∧
      (∀ k < Width.half.bytes, narrow.image.contains ((0x2006#32).toNat + k) = false) ∧
      ∃ k < Width.half.bytes, narrow.inMemValid ((0x2006#32).toNat + k) = false) ∧
    (AccessAllowed narrow 0x2000#32 .word ∧ 2 < Width.word.bytes ∧ narrow.mem.read ((0x2000#32).toNat + 2) = none ∧
      ∀ j < 2, narrow.mem.read ((0x2000#32).toNat + j) ≠ none) ∧
    (AccessAllowed narrow 0x2000#32 .half ∧ HoldsLE narrow 0x2000#32 .half 0x1234#16) := by
  unfold AccessAllowed HoldsLE; decide

/-- The outcomes of `MemWrite`: those of `MemRead` but the byte with no value. -/
theorem witness_MemWriteChecksThenBytes :
    ((0x2001#32).toNat % Width.word.bytes ≠ 0) ∧
    ((0x1000#32).toNat % Width.word.bytes = 0 ∧
      ∃ k < Width.word.bytes, narrow.image.contains ((0x1000#32).toNat + k) = true) ∧
    ((0x2004#32).toNat % Width.word.bytes = 0 ∧
      (∀ k < Width.word.bytes, narrow.image.contains ((0x2004#32).toNat + k) = false) ∧
      ∃ k < Width.word.bytes, narrow.inMemValid ((0x2004#32).toNat + k) = false) ∧
    AccessAllowed narrow 0x2000#32 .word := by
  unfold AccessAllowed; decide

theorem witness_MixedWidthReads : (∃ m, memWrite narrow 0x2000#32 .word 0xDEADBEEF#32 = .ok m) ∧
    AccessAllowed (stateOf 0x1000#32 [] loadBytes) 0x2004#32 .word ∧
    (stateOf 0x1000#32 [] loadBytes).mem.read (0x2004#32).toNat = some 0x7F#8 ∧
    (stateOf 0x1000#32 [] loadBytes).mem.read ((0x2004#32).toNat + 1) = some 0x80#8 ∧
    (stateOf 0x1000#32 [] loadBytes).mem.read ((0x2004#32).toNat + 2) = some 0x00#8 ∧
    (stateOf 0x1000#32 [] loadBytes).mem.read ((0x2004#32).toNat + 3) = some 0xFF#8 :=
  ⟨⟨_, rfl⟩, by unfold AccessAllowed; decide⟩

theorem witness_SignedDivisionResults :
    (stateOf 0x1000#32 [(1, 0x80000000#32), (2, 0x00000001#32)] []).readReg 2 ≠ 0#32 ∧
    ¬ ((stateOf 0x1000#32 [(1, 0x80000000#32), (2, 0x00000001#32)] []).readReg 1 = 0x80000000#32 ∧
      (stateOf 0x1000#32 [(1, 0x80000000#32), (2, 0x00000001#32)] []).readReg 2 = 0xFFFFFFFF#32) := by decide

theorem witness_UnsignedDivisionResults :
    (stateOf 0x1000#32 [(1, 0x80000000#32), (2, 0xFFFFFFFF#32)] []).readReg 2 ≠ 0#32 := by decide

theorem witness_DivisionCornersDefault :
    (stateOf 0x1000#32 [(1, 0x00000007#32), (2, 0x00000000#32)] []).divCorner = .riscvM ∧ (stateOf 0x1000#32 [(1, 0x00000007#32), (2, 0x00000000#32)] []).readReg 2 = 0#32 ∧
    (stateOf 0x1000#32 [(1, 0x80000000#32), (2, 0xFFFFFFFF#32)] []).readReg 1 = 0x80000000#32 ∧
    (stateOf 0x1000#32 [(1, 0x80000000#32), (2, 0xFFFFFFFF#32)] []).readReg 2 = 0xFFFFFFFF#32 := by decide

theorem witness_DivisionNeverFaults :
    Instr.remu 3 1 2 ∈ [Instr.div 3 1 2, .divu 3 1 2, .rem 3 1 2, .remu 3 1 2] := by decide

theorem witness_ShiftResults :
    0 < 32 ∧ 31 < 32 := by decide

theorem witness_JalCompletes :
    (to32 ((u32 (stateOf 0x1000#32 [] []).pc : Int) + (0x100000#21).toInt)).toNat % 4 = 0 := by decide

/-- The lowest target, and a sum whose bit 0 is cleared. -/
theorem witness_JalrCompletes :
    (∀ k < 32, (0x2000#32).getLsbD k = if k = 0 then false else
      (to32 ((u32 ((stateOf 0x1000#32 [(5, 0x2000#32)] []).readReg 5) : Int) + (1#12).toInt)).getLsbD k) ∧
    (0x2000#32).toNat % 4 = 0 := by decide

theorem witness_MisalignedJumpFaults : (jalTarget (stateOf 0x1000#32 [] []) 2#21).toNat % 4 ≠ 0 ∧
    (jalrTarget (stateOf 0x1000#32 [(5, 0x2000#32)] []) 5 3#12).getLsbD 1 = true := by decide

/-- Taken and not taken, each kind. -/
theorem witness_BranchesComplete :
    (BranchKind.cond .beq 5#32 5#32 ∧ BranchKind.cond .bne 1#32 2#32 ∧ BranchKind.cond .blt 0x80000000#32 0x7FFFFFFF#32 ∧
      BranchKind.cond .bge 5#32 5#32 ∧ BranchKind.cond .bltu 1#32 0xFFFFFFFF#32 ∧ BranchKind.cond .bgeu 0#32 0#32) ∧
    (¬ BranchKind.cond .beq 1#32 2#32 ∧ ¬ BranchKind.cond .bne 5#32 5#32 ∧ ¬ BranchKind.cond .blt 5#32 5#32 ∧
      ¬ BranchKind.cond .bge 1#32 2#32 ∧ ¬ BranchKind.cond .bltu 0#32 0#32 ∧ ¬ BranchKind.cond .bgeu 1#32 2#32) ∧
    (to32 ((u32 (stateOf 0x2000#32 [] []).pc : Int) + (0x1000#13).toInt)).toNat % 4 = 0 := by
  unfold BranchKind.cond; decide

/-- Taken to a target that is not a multiple of 4; not taken; an aligned `pc` and a well-formed branch. -/
theorem witness_MisalignedBranchFaults :
    (BranchKind.cond .beq ((stateOf 0x1000#32 [] []).readReg 0) ((stateOf 0x1000#32 [] []).readReg 0) ∧
      (branchTarget (stateOf 0x1000#32 [] []) 2#13).toNat % 4 ≠ 0) ∧
    ¬ BranchKind.cond .bne ((stateOf 0x1000#32 [] []).readReg 0) ((stateOf 0x1000#32 [] []).readReg 0) ∧
    ((stateOf 0x1000#32 [] []).pc.toNat % 4 = 0 ∧ (BranchKind.instr .beq 0 0 0x0FFE#13).wellFormed = true) := by
  unfold BranchKind.cond; decide

theorem witness_OppositeBranches : (BranchKind.beq, BranchKind.bne) ∈
      [(BranchKind.beq, BranchKind.bne), (.blt, .bge), (.bltu, .bgeu)] ∧
    (branchTarget (stateOf 0x1000#32 [] []) 16#13).toNat % 4 = 0 := by decide

/-- An allowed access at the lowest and at the highest byte, and the value there. -/
theorem witness_LoadsComplete :
    (AccessAllowed narrow (effAddr narrow 1 0#12) LoadKind.lh.width ∧
      HoldsLE narrow (effAddr narrow 1 0#12) LoadKind.lh.width 0x1234#16) ∧
    (AccessAllowed (stateOf 0x1000#32 [] [(0xFFFFFFFF, 0x80#8)])
        (effAddr (stateOf 0x1000#32 [] [(0xFFFFFFFF, 0x80#8)]) 0 0xFFF#12) LoadKind.lb.width ∧
      HoldsLE (stateOf 0x1000#32 [] [(0xFFFFFFFF, 0x80#8)])
        (effAddr (stateOf 0x1000#32 [] [(0xFFFFFFFF, 0x80#8)]) 0 0xFFF#12) LoadKind.lb.width 0x80#8) := by
  unfold AccessAllowed HoldsLE; decide

/-- A running state whose `x1` points into the image. -/
def intoImage : State := placed 0x13 [(1, 0x1000#32)] []

/-- One effective address for each fault, at the edges of the ranges. -/
theorem witness_LoadsFaultInOrder :
    ((effAddr narrow 1 1#12).toNat % LoadKind.lhu.width.bytes ≠ 0) ∧
    ((effAddr intoImage 1 0#12).toNat % LoadKind.lw.width.bytes = 0 ∧
      ∃ k < LoadKind.lw.width.bytes, intoImage.image.contains ((effAddr intoImage 1 0#12).toNat + k) = true) ∧
    ((effAddr narrow 1 4#12).toNat % LoadKind.lw.width.bytes = 0 ∧
      (∀ k < LoadKind.lw.width.bytes, narrow.image.contains ((effAddr narrow 1 4#12).toNat + k) = false) ∧
      ∃ k < LoadKind.lw.width.bytes, narrow.inMemValid ((effAddr narrow 1 4#12).toNat + k) = false) ∧
    (AccessAllowed narrow (effAddr narrow 1 0#12) LoadKind.lw.width ∧
      ∃ k < LoadKind.lw.width.bytes, narrow.mem.read ((effAddr narrow 1 0#12).toNat + k) = none) := by
  unfold AccessAllowed; decide

theorem witness_StoresComplete : AccessAllowed narrow (effAddr narrow 1 6#12) StoreKind.sb.width ∧
    AccessAllowed narrow (effAddr narrow 1 0#12) StoreKind.sw.width := by
  unfold AccessAllowed; decide

theorem witness_StoresFaultInOrder :
    ((effAddr narrow 1 2#12).toNat % StoreKind.sw.width.bytes ≠ 0) ∧
    ((effAddr intoImage 1 3#12).toNat % StoreKind.sb.width.bytes = 0 ∧
      ∃ j < StoreKind.sb.width.bytes, intoImage.image.contains ((effAddr intoImage 1 3#12).toNat + j) = true) ∧
    ((effAddr narrow 1 6#12).toNat % StoreKind.sh.width.bytes = 0 ∧
      (∀ j < StoreKind.sh.width.bytes, narrow.image.contains ((effAddr narrow 1 6#12).toNat + j) = false) ∧
      ∃ j < StoreKind.sh.width.bytes, narrow.inMemValid ((effAddr narrow 1 6#12).toNat + j) = false) := by decide

theorem witness_StoreThenLoad : (∃ t, exec (.sw 2 1 0#12) narrow = .next t) ∧ (∃ t, exec (.sh 2 1 4#12) narrow = .next t) ∧
    (∃ t, exec (.sb 2 1 6#12) narrow = .next t) := ⟨⟨_, rfl⟩, ⟨_, rfl⟩, ⟨_, rfl⟩⟩

/-- A register write, a jump, a branch, a load and a store that answer a next state. -/
theorem witness_InstructionFrame : (∃ t, exec (.add 3 1 2) narrow = .next t) ∧ (∃ t, exec (.jal 1 8#21) narrow = .next t) ∧
    (∃ t, exec (.bne 1 2 8#13) narrow = .next t) ∧ (∃ t, exec (.lhu 3 1 0#12) narrow = .next t) ∧
    (∃ t, exec (.sw 2 1 0#12) narrow = .next t) := ⟨⟨_, rfl⟩, ⟨_, rfl⟩, ⟨_, rfl⟩, ⟨_, rfl⟩, ⟨_, rfl⟩⟩

theorem witness_OnlyTransfersWritePc : Instr.isTransfer (.sw 2 1 0#12) = false ∧
    ∃ t, exec (.sw 2 1 0#12) narrow = .next t := ⟨by decide, _, rfl⟩

/-- A register no field names; the `rd` of a load that answers a next state, and of one that faults. -/
theorem witness_UnnamedRegistersDoNotMatter :
    (4 ∉ Instr.sources (.lw 3 1 0#12) ∧ Instr.dest? (.lw 3 1 0#12) ≠ some 4) ∧
    (3 ∉ Instr.sources (.lhu 3 1 0#12) ∧ Instr.dest? (.lhu 3 1 0#12) = some 3 ∧
      ∃ t, exec (.lhu 3 1 0#12) narrow = .next t) ∧
    (3 ∉ Instr.sources (.lw 3 1 2#12) ∧ Instr.dest? (.lw 3 1 2#12) = some 3 ∧
      exec (.lw 3 1 2#12) narrow = .fault (.misalignedAccess 0x2002#32)) :=
  ⟨by decide, ⟨by decide, by decide, _, rfl⟩, by decide, by decide, rfl⟩

/-- Each of the five faults an instruction raises. -/
theorem witness_FaultsAreTheOnesListed : exec (.jal 1 2#21) narrow = .fault (.misalignedFetch 0x1002#32) ∧
    exec (.lh 3 1 1#12) narrow = .fault (.misalignedAccess 0x2001#32) ∧
    exec (.sb 2 1 3#12) intoImage = .fault (.imageAccess 0x1003#32) ∧
    exec (.sw 2 1 4#12) narrow = .fault (.accessFault 0x2004#32) ∧
    exec (.lw 3 1 0#12) narrow = .fault (.unwrittenRead 0x2002#32) := ⟨rfl, rfl, rfl, rfl, rfl⟩

/-- The three fetches: a `pc` that is no multiple of 4, the first word past the image, the image's word. -/
theorem witness_FetchReadsTheImage : narrow.image.wf ∧
    (narrow.withPc 0x1002#32).pc.toNat % 4 ≠ 0 ∧
    ((narrow.withPc 0x1004#32).pc.toNat % 4 = 0 ∧
      narrow.image.contains (narrow.withPc 0x1004#32).pc.toNat = false) ∧
    (narrow.pc.toNat % 4 = 0 ∧ narrow.image.contains narrow.pc.toNat = true) := by decide

theorem witness_StepRunsTheDecodedInstruction :
    ((placed 0x00108193 [] []).status = .running ∧ (placed 0x00108193 [] []).pc ≠ (placed 0x00108193 [] []).endPc ∧
      fetch (placed 0x00108193 [] []) = .ok 0x00108193#32 ∧ decode 0x00108193#32 = .ok (.addi 3 1 1#12)) ∧
    (∃ t, exec (.addi 3 1 1#12) (placed 0x00108193 [] []) = .next t) ∧
    (decode 0x002002EF#32 = .ok (.jal 5 2#21) ∧
      exec (.jal 5 2#21) (placed 0x002002EF [] []) = .fault (.misalignedFetch 0x1002#32)) :=
  ⟨by decide, ⟨_, rfl⟩, by decide, rfl⟩

theorem witness_StepFetchFaults : (narrow.withPc 0x1008#32).status = .running ∧
    (narrow.withPc 0x1008#32).pc ≠ (narrow.withPc 0x1008#32).endPc ∧
    fetch (narrow.withPc 0x1008#32) = .error (.fetchAccessFault 0x1008#32) := by decide

theorem witness_RunEndsAtEndPc : State.reset.status = .running ∧ State.reset.pc = State.reset.endPc := by decide

theorem witness_RunsThatAreOverStayOver : (State.reset.withStatus .ended).status = .ended ∧
    (State.reset.withStatus (.faulted (.imageAccess 0#32))).status = .faulted (.imageAccess 0#32) := by decide

theorem witness_FaultsArePrecise : step (placed 0x0000A103 [(1, 1#32)] []) = .fault (.misalignedAccess 1#32) := rfl

/-- A completed instruction, and a step that completes none. -/
theorem witness_StepsCountCompletedInstructions :
    ((placed 0x13 [] []).status = .running ∧ (placed 0x13 [] []).pc ≠ (placed 0x13 [] []).endPc ∧
      ∃ t, step (placed 0x13 [] []) = .next t) ∧
    (¬ (State.reset.status = .running ∧ State.reset.pc ≠ State.reset.endPc) ∧ ∃ t, step State.reset = .next t) :=
  ⟨⟨by decide, by decide, _, rfl⟩, by decide, _, rfl⟩

theorem witness_StoresNeverReachTheFetch : ∃ t, step (placed 0x0020A023 [(1, 0x3000#32)] []) = .next t := ⟨_, rfl⟩

/-- A good state whose step stores a word. -/
theorem witness_StepKeepsInv : (placed 0x0020A023 [(1, 0x3000#32)] storeBytes).Inv ∧
    ∃ t, step (placed 0x0020A023 [(1, 0x3000#32)] storeBytes) = .next t :=
  ⟨by constructor <;> decide, _, rfl⟩

theorem witness_InvRulesOutMisalignedFetch : (placed 0x002002EF [] []).Inv ∧
    step (placed 0x002002EF [] []) = .fault (.misalignedFetch 0x1002#32) := ⟨by constructor <;> decide, rfl⟩

/-- A launch with one instruction and two bytes of `MEM_INIT`. -/
def sampleLaunch : LaunchParams where
  resetPc := 0x1000#32
  endPc := 0x1004#32
  image := ⟨0x1000#32, [0x0000A183#32]⟩
  memInit := [(0x0FFF, 0x01#8), (0x1004, 0x02#8)]
  regs := regsFilled 7#32

/-- A launch that is a run, with bytes just below and just above its image, and one that is refused. -/
theorem witness_LaunchAcceptsOrRefuses : (∃ s, launch sampleLaunch = .ok s) ∧
    ((2#32).toNat % 4 ≠ 0 ∧ launch { sampleLaunch with resetPc := 2#32 } = .error .badResetPc) ∧
    launch { sampleLaunch with memInit := [(0x1003, 0x01#8)] } = .error .badMemInit := ⟨⟨_, rfl⟩, ⟨by decide, rfl⟩, rfl⟩

theorem witness_LaunchedState : (∃ s, launch sampleLaunch = .ok s) ∧
    ((0x0FFF, 0x01#8) ∈ sampleLaunch.memInit ∧ ∀ d ∈ sampleLaunch.memInit, d.1 = 0x0FFF → d.2 = 0x01#8) ∧
    (∀ c ∈ sampleLaunch.memInit, c.1 ≠ 0x1000) ∧ (3 : RegIdx) ≠ 0 := ⟨⟨_, rfl⟩, by decide, by decide, by decide⟩

theorem witness_LaunchedRunsStayGood : ∃ s t, launch { sampleLaunch with image := ⟨0x1000#32, [0x00108193#32]⟩ } = .ok s ∧
    Sys2Proof.core.run 2 s = .next t ∧ t.status = .ended ∧ t.steps = 1 := ⟨_, _, rfl, rfl, rfl, rfl⟩

theorem witness_PlacedWordIsRun : State.reset.pc.toNat % 4 = 0 ∧ decodeTableWord 32 0x00000013 = some (.addi 0 0 0#12) := by
  decide

end Sys2Proof.Tests
end

section
/-! SUPPORT. Proofs of the family 10_state.md: what an instruction that completes does to the registers (spec rule R11). -/

namespace Sys2Proof.Machine

/-! ### The registers after an instruction -/

/-- A write to `x[0]` leaves every register as it reads (R11). -/
theorem RegsAfter.sameRegs_of_zero {s t : State} {v : Word} (h : RegsAfter s t 0 v) : SameRegs s t := fun r => by
  rw [h r]
  split
  · next hr => rw [hr, State.readReg_zero]
  · rfl

theorem jumpLink_regsAfter {rd : RegIdx} {target : Word} {s t : State} (h : jumpLink rd target s = .next t) :
    RegsAfter s t rd (s.pc + 4#32) := by
  obtain ⟨-, rfl⟩ := jumpLink_next h
  exact fun r => State.writeReg_readReg s rd r _

theorem branchIf_sameRegs {c : Bool} {offset : BitVec 13} {s t : State} (h : branchIf c offset s = .next t) :
    SameRegs s t := by
  obtain ⟨-, -, rfl⟩ | ⟨-, rfl⟩ := branchIf_next h
  · exact State.withPc_readReg s _
  · exact State.advance_readReg s

theorem loadInto_writes {w : Width} {ext : BitVec w.bits → Word} {rd rs1 : RegIdx} {offset : BitVec 12} {s t : State}
    (h : loadInto w ext rd rs1 offset s = .next t) : ∃ v, WritesReg s t rd v := by
  obtain ⟨v, -, rfl⟩ := loadInto_next h
  exact ⟨ext v, writesReg_write_advance s rd _⟩

theorem storeFrom_sameRegs {w : Width} {rs2 rs1 : RegIdx} {offset : BitVec 12} {s t : State}
    (h : storeFrom w rs2 rs1 offset s = .next t) : SameRegs s t := by
  obtain ⟨m, -, rfl⟩ := storeFrom_next h
  exact State.withMem_readReg s m

/-- All that an instruction that completes does to the registers: with an `rd` it is one write to it, without one it is
nothing. -/
theorem exec_next_regs {i : Instr} {s t : State} (h : exec i s = .next t) :
    (∃ rd v, i.dest? = some rd ∧ RegsAfter s t rd v) ∨ (i.dest? = none ∧ SameRegs s t) := by
  cases exec_shape i s with
  | reg rd v hd _ _ he => exact .inl ⟨rd, v, hd, (finishReg_writes (he ▸ h)).1⟩
  | jump rd target hd _ _ he => exact .inl ⟨rd, _, hd, jumpLink_regsAfter (he ▸ h)⟩
  | branch c offset hd _ _ he => exact .inr ⟨hd, branchIf_sameRegs (he ▸ h)⟩
  | load w ext rd rs1 offset hd _ _ he =>
    obtain ⟨v, hregs, -⟩ := loadInto_writes (he ▸ h)
    exact .inl ⟨rd, v, hd, hregs⟩
  | store w rs2 rs1 offset hd _ _ he => exact .inr ⟨hd, storeFrom_sameRegs (he ▸ h)⟩

/-- An instruction whose `rd` is 0 changes no register (R11). -/
theorem exec_sameRegs_of_dest_zero {i : Instr} {s t : State} (hd : i.dest? = some 0) (h : exec i s = .next t) :
    SameRegs s t := by
  obtain ⟨rd, v, hrd, hregs⟩ | ⟨-, hsame⟩ := exec_next_regs h
  · obtain rfl : 0 = rd := Option.some.inj (hd.symm.trans hrd)
    exact hregs.sameRegs_of_zero
  · exact hsame

/-- Settles O9, by the register effect of each shape of instruction. -/
theorem zeroRegister : Obligations.ZeroRegister := by
  unfold Obligations.ZeroRegister
  exact fun s => ⟨s.readReg_zero, s.writeReg_zero, fun _ _ => exec_sameRegs_of_dest_zero⟩

end Sys2Proof.Machine
end

section
/-! SUPPORT. Proofs of the family 20_memory.md: what `MemWrite` answers and the bytes it leaves (spec rule R33). -/

namespace Sys2Proof.Machine

/-! ### The outcomes of `MemWrite` -/

/-- The faults of `MemWrite` are those of its checks: the write itself has none (R33). -/
theorem memWrite_error_iff (s : State) (addr : Word) (w : Width) (v : Word) (f : Fault) :
    memWrite s addr w v = .error f ↔ checkAccess s addr w = .error f := by
  simp only [memWrite]
  cases checkAccess s addr w <;> simp

/-- An allowed `MemWrite` answers a memory (R33). -/
theorem AccessAllowed.memWrite_ok {s : State} {addr : Word} {w : Width} (h : AccessAllowed s addr w) (v : Word) :
    ∃ m, memWrite s addr w v = .ok m :=
  ⟨_, (memWrite_ok_iff _ _ _ _ _).2 ⟨(checkAccess_ok_iff _ _ _).2 h, rfl⟩⟩

/-! ### The bytes after `MemWrite` -/

section
variable {s : State} {addr v : Word} {w : Width} {m : Memory}

/-- Byte `i` of the value written stands at `addr + i` (R33 step 4, R34). -/
theorem memWrite_read_written (h : memWrite s addr w v = .ok m) {i : Nat} (hi : i < w.bytes) :
    m.read (addr.toNat + i) = some (v.extractLsb' (8 * i) 8) := by
  rw [memWrite_read h, if_pos ⟨Nat.le_add_right _ _, Nat.add_lt_add_left hi _⟩, Nat.add_sub_cancel_left]

/-- A byte below or above the access keeps what it held (R31). -/
theorem memWrite_read_other (h : memWrite s addr w v = .ok m) {a : Nat}
    (ha : a < addr.toNat ∨ addr.toNat + w.bytes ≤ a) : m.read a = s.mem.read a := by
  rw [memWrite_read h, if_neg (by omega)]

end

/-- Settles O12: the faults are those of `checkAccess`, the bytes those of `memWrite_read`. -/
theorem memWriteChecksThenBytes : Obligations.MemWriteChecksThenBytes := by
  unfold Obligations.MemWriteChecksThenBytes
  intro s addr w v
  have fault_iff (f : Fault) := (memWrite_error_iff s addr w v f).trans (checkAccess_error_iff s addr w f)
  refine ⟨fun hmis => ?misaligned, fun hal himg => ?image, fun hal hout hinv => ?invalid, fun hok => ?allowed⟩
  case misaligned => exact (fault_iff _).2 (.inl ⟨hmis, rfl⟩)
  case image => exact (fault_iff _).2 (.inr (.inl ⟨hal, himg, rfl⟩))
  case invalid => exact (fault_iff _).2 (.inr (.inr ⟨hal, hout, hinv, rfl⟩))
  case allowed =>
    obtain ⟨m, hm⟩ := hok.memWrite_ok v
    exact ⟨m, hm, fun _ => memWrite_read_written hm, fun _ => memWrite_read_other hm⟩

end Sys2Proof.Machine
end

section
/-! SUPPORT. Proofs of the family 30_encoding.md: which words the opcode table leaves out and what a step does on one
(spec rules R75, R76). -/

namespace Sys2Proof

/-! ### The rows of an opcode -/

/-- The field codes a row fixes besides its opcode: `funct7` and `funct3`, where its mask keeps them (R63, R72 to R74). -/
def OpcodeRow.codes (r : OpcodeRow) : Option (BitVec 7) × Option (BitVec 3) :=
  (if r.mask = 0xfe00707f#32 then some (funct7Field r.pattern) else none,
    if r.mask = 0x0000007f#32 then none else some (funct3Field r.pattern))

/-- The codes of the rows of one opcode, in the order of the table. -/
def rowsOf (op : BitVec 7) : List (Option (BitVec 7) × Option (BitVec 3)) :=
  (opcodeTable.filter fun r => opcodeField r.pattern = op).map OpcodeRow.codes

/-- No row of the opcode fixes these codes. -/
def NoRow (op : BitVec 7) (f3 : BitVec 3) (f7 : BitVec 7) : Prop :=
  ∀ c ∈ rowsOf op, ¬ (c.1.all (f7 = ·) ∧ c.2.all (f3 = ·))

/-- The table has three masks, and no pattern has a bit outside its mask. -/
theorem opcodeTable_masks : ∀ r ∈ opcodeTable,
    (r.mask = 0x0000007f#32 ∨ r.mask = 0x0000707f#32 ∨ r.mask = 0xfe00707f#32) ∧ r.pattern &&& r.mask = r.pattern := by
  decide

/-- Matching by mask and pattern (R234) is agreement on the opcode and the codes of the row. -/
theorem OpcodeRow.matchesWord_iff {r : OpcodeRow} (hr : r ∈ opcodeTable) (w : Word) :
    r.matchesWord w = true ↔
      (r.codes.1.all (funct7Field w = ·) ∧ r.codes.2.all (funct3Field w = ·)) ∧
        opcodeField r.pattern = opcodeField w := by
  obtain ⟨hmask, hpat⟩ := opcodeTable_masks r hr
  have masked : r.matchesWord w = true ↔ r.pattern &&& r.mask = w &&& r.mask := by
    rw [hpat, OpcodeRow.matchesWord, beq_iff_eq, eq_comm]
  rw [masked, OpcodeRow.codes]
  rcases hmask with hm | hm | hm <;> rw [hm]
  · rw [and_mask_opcode, and_mask_opcode, encR_fixed_inj]; simp [eq_comm]
  · rw [and_mask_funct3, and_mask_funct3, encR_fixed_inj]; simp [eq_comm]
  · rw [and_mask_funct7, and_mask_funct7, encR_fixed_inj]; simp [eq_comm, and_assoc]

/-- A word matches no row of the table exactly when no row of its opcode fixes its `funct3` and `funct7`. -/
theorem no_match_iff_noRow (w : Word) :
    (∀ r ∈ opcodeTable, r.matchesWord w = false) ↔ NoRow (opcodeField w) (funct3Field w) (funct7Field w) := by
  simp only [NoRow, rowsOf, List.forall_mem_map, List.mem_filter, decide_eq_true_eq, and_imp]
  exact forall₂_congr fun r hr => by rw [← Bool.not_eq_true, OpcodeRow.matchesWord_iff hr, not_and']

/-- R76: the nine opcodes of the table. -/
def usedOpcodes : List (BitVec 7) :=
  [0b0000011#7, 0b0010011#7, 0b0010111#7, 0b0100011#7, 0b0110011#7, 0b0110111#7, 0b1100011#7, 0b1100111#7, 0b1101111#7]

theorem rowsOf_unused {op : BitVec 7} (h : op ∉ usedOpcodes) : rowsOf op = [] := by
  have used : ∀ r ∈ opcodeTable, opcodeField r.pattern ∈ usedOpcodes := by decide
  rw [rowsOf, List.map_eq_nil_iff, List.filter_eq_nil_iff]
  exact fun r hr heq => h (of_decide_eq_true heq ▸ used r hr)

/-! ### The codes no row of an opcode fixes (R75) -/

section
variable (f3 : BitVec 3) (f7 : BitVec 7)

theorem noRow_iff_of_funct3_rows {op : BitVec 7} {codes : List (BitVec 3)}
    (h : rowsOf op = codes.map fun c => (none, some c)) : NoRow op f3 f7 ↔ f3 ∉ codes := by
  rw [NoRow, h, List.forall_mem_map]
  simpa using List.forall_mem_ne

theorem not_noRow_of_opcode_row {op : BitVec 7} (h : rowsOf op = [(none, none)]) : ¬ NoRow op f3 f7 := by
  simp [NoRow, h]

theorem noRow_load : NoRow 0b0000011#7 f3 f7 ↔ f3 ∈ [0b011#3, 0b110#3, 0b111#3] := by
  rw [noRow_iff_of_funct3_rows (codes := [0, 1, 4, 5, 2]) _ _ (by decide)]
  revert f3; decide

theorem noRow_store : NoRow 0b0100011#7 f3 f7 ↔ f3 ∈ [0b011#3, 0b100#3, 0b101#3, 0b110#3, 0b111#3] := by
  rw [noRow_iff_of_funct3_rows (codes := [0, 1, 2]) _ _ (by decide)]
  revert f3; decide

theorem noRow_branch : NoRow 0b1100011#7 f3 f7 ↔ f3 ∈ [0b010#3, 0b011#3] := by
  rw [noRow_iff_of_funct3_rows (codes := [0, 1, 4, 5, 6, 7]) _ _ (by decide)]
  revert f3; decide

theorem noRow_jalr : NoRow 0b1100111#7 f3 f7 ↔ f3 ≠ 0b000#3 := by
  rw [noRow_iff_of_funct3_rows (codes := [0]) _ _ (by decide)]
  simp

theorem funct3_cases : f3 = 0 ∨ f3 = 1 ∨ f3 = 2 ∨ f3 = 3 ∨ f3 = 4 ∨ f3 = 5 ∨ f3 = 6 ∨ f3 = 7 := by
  revert f3; decide

theorem noRow_opImm : NoRow 0b0010011#7 f3 f7 ↔
    (f3 = 0b001#3 ∧ f7 ≠ 0b0000000#7) ∨ (f3 = 0b101#3 ∧ f7 ≠ 0b0000000#7 ∧ f7 ≠ 0b0100000#7) := by
  have rows : rowsOf 0b0010011#7 = [(none, some 0), (none, some 4), (none, some 6), (none, some 7), (some 0, some 1),
    (some 0, some 5), (some 32, some 5), (none, some 2), (none, some 3)] := by decide
  rw [NoRow, rows]
  rcases funct3_cases f3 with rfl | rfl | rfl | rfl | rfl | rfl | rfl | rfl <;> simp

theorem noRow_op : NoRow 0b0110011#7 f3 f7 ↔
    (f7 ≠ 0b0000000#7 ∧ f7 ≠ 0b0100000#7 ∧ f7 ≠ 0b0000001#7) ∨
      (f7 = 0b0100000#7 ∧ f3 ≠ 0b000#3 ∧ f3 ≠ 0b101#3) := by
  have rows : rowsOf 0b0110011#7 = [(some 0, some 0), (some 32, some 0)] ++
    ([0, 1, 2, 3, 4, 5, 6, 7].map fun c => (some 1, some c)) ++ ([4, 6, 7, 1, 5].map fun c => (some 0, some c)) ++
    [(some 32, some 5), (some 0, some 2), (some 0, some 3)] := by decide
  by_cases hz : f7 = 0b0000000#7
  · subst hz; rw [NoRow, rows]
    rcases funct3_cases f3 with rfl | rfl | rfl | rfl | rfl | rfl | rfl | rfl <;> simp
  by_cases hm : f7 = 0b0000001#7
  · subst hm; rw [NoRow, rows]
    rcases funct3_cases f3 with rfl | rfl | rfl | rfl | rfl | rfl | rfl | rfl <;> simp
  by_cases ha : f7 = 0b0100000#7
  · subst ha
    simp [NoRow, rows]
  simp [NoRow, rows, hz, hm, ha]

/-- The fields of an illegal word: the list of R75 within the nine opcodes, and the other opcodes of R76. -/
def IllegalFields (op : BitVec 7) (f3 : BitVec 3) (f7 : BitVec 7) : Prop :=
  (op = 0b0110011#7 ∧ f7 ≠ 0b0000000#7 ∧ f7 ≠ 0b0100000#7 ∧ f7 ≠ 0b0000001#7) ∨
  (op = 0b0110011#7 ∧ f7 = 0b0100000#7 ∧ f3 ≠ 0b000#3 ∧ f3 ≠ 0b101#3) ∨
  (op = 0b0010011#7 ∧ f3 = 0b001#3 ∧ f7 ≠ 0b0000000#7) ∨
  (op = 0b0010011#7 ∧ f3 = 0b101#3 ∧ f7 ≠ 0b0000000#7 ∧ f7 ≠ 0b0100000#7) ∨
  (op = 0b0000011#7 ∧ f3 ∈ [0b011#3, 0b110#3, 0b111#3]) ∨
  (op = 0b0100011#7 ∧ f3 ∈ [0b011#3, 0b100#3, 0b101#3, 0b110#3, 0b111#3]) ∨
  (op = 0b1100011#7 ∧ f3 ∈ [0b010#3, 0b011#3]) ∨
  (op = 0b1100111#7 ∧ f3 ≠ 0b000#3) ∨
  op ∉ usedOpcodes

/-- The fields of no row are the fields of an illegal word, opcode by opcode. -/
theorem noRow_iff_illegalFields (op : BitVec 7) : NoRow op f3 f7 ↔ IllegalFields op f3 f7 := by
  by_cases hop : op ∈ usedOpcodes
  · simp only [usedOpcodes, List.mem_cons, List.not_mem_nil, or_false] at hop
    rcases hop with rfl | rfl | rfl | rfl | rfl | rfl | rfl | rfl | rfl
    · simp [IllegalFields, usedOpcodes, noRow_load]
    · simp [IllegalFields, usedOpcodes, noRow_opImm]
    · simp [IllegalFields, usedOpcodes, not_noRow_of_opcode_row f3 f7 (op := 0b0010111#7) (by decide)]
    · simp [IllegalFields, usedOpcodes, noRow_store]
    · simp [IllegalFields, usedOpcodes, noRow_op]
    · simp [IllegalFields, usedOpcodes, not_noRow_of_opcode_row f3 f7 (op := 0b0110111#7) (by decide)]
    · simp [IllegalFields, usedOpcodes, noRow_branch]
    · simp [IllegalFields, usedOpcodes, noRow_jalr]
    · simp [IllegalFields, usedOpcodes, not_noRow_of_opcode_row f3 f7 (op := 0b1101111#7) (by decide)]
  · simp [IllegalFields, NoRow, rowsOf_unused hop, hop]

end

/-! ### The decoder on an illegal word -/

/-- The decoder selects no instruction for a word with illegal fields (R75, R76). -/
theorem decode?_eq_none {w : Word} (h : IllegalFields (opcodeField w) (funct3Field w) (funct7Field w)) :
    decode? w = none := by
  rcases h with ⟨hop, h⟩ | ⟨hop, h⟩ | ⟨hop, h⟩ | ⟨hop, h⟩ | ⟨hop, h⟩ | ⟨hop, h⟩ | ⟨hop, h⟩ | ⟨hop, h⟩ | hop
  · simp only [decode?, hop, decodeOp]
    split <;> simp_all
  · simp only [decode?, hop, decodeOp]
    split <;> simp_all
  · simp [decode?, hop, decodeOpImm, h]
  · simp [decode?, hop, decodeOpImm, h]
  · simp only [decode?, hop, decodeLoad]
    split <;> simp_all
  · simp only [decode?, hop, decodeStore]
    split <;> simp_all
  · simp only [decode?, hop, decodeBranch]
    split <;> simp_all
  · simp [decode?, hop, decodeJalr]
  · rw [decode?]
    split <;> simp_all [usedOpcodes]

/-- A word with illegal fields is refused by name (R75). -/
theorem decode_illegal {w : Word} (h : IllegalFields (opcodeField w) (funct3Field w) (funct7Field w)) :
    decode w = .error (.illegalInstruction w) := by
  rw [decode, decode?_eq_none h]

end Sys2Proof

namespace Sys2Proof.Machine

/-! ### The step on an illegal word -/

/-- A step that fetches a word the decoder refuses is the fault IllegalInstruction(word) (R75, R203). -/
theorem step_illegal {s : State} {w : Word} {e : DecodeError} (hrun : s.status = .running) (hpc : s.pc ≠ s.endPc)
    (hfetch : fetch s = .ok w) (hdec : decode w = .error e) : step s = .fault (.illegalInstruction w) := by
  simp [step, hrun, hpc, runInstr, hfetch, orRaise, hdec, raise]

/-- A fault sets `status` and writes nothing else (R200). -/
theorem settledStep_of_fault {s : State} {f : Fault} (h : step s = .fault f) :
    settledStep s = s.withStatus (.faulted f) := by
  rw [settledStep, h, State.settle]

/-- Settles O6: the rows by opcode give R75's list, and on each of its kinds the decoder answers no instruction. -/
theorem illegalEncodingsFault : Obligations.IllegalEncodingsFault := by
  unfold Obligations.IllegalEncodingsFault
  intro w
  have illegal_iff := (no_match_iff_noRow w).trans (noRow_iff_illegalFields _ _ _)
  refine ⟨illegal_iff, fun hnone s hrun hpc hfetch => ?_⟩
  have fault := step_illegal hrun hpc hfetch (decode_illegal (illegal_iff.1 hnone))
  exact ⟨fault, settledStep_of_fault fault⟩

end Sys2Proof.Machine
end

section
/-! SUPPORT. Proofs of the family 30_encoding.md: the 32-bit immediates of the formats (spec rules R64 to R68). -/

namespace Sys2Proof.Machine

/-! ### The immediate of a decoded word is the one of its format -/

/-- The 32-bit immediate a word has in a format, if the format has one (R64 to R68). -/
def formatImmediate (w : Word) : Format → Option Word
  | .i => some (sext12 (immI w))
  | .s => some (sext12 (immS w))
  | .b => some (sext13 (immB w))
  | .u => some (upperImm (immU w))
  | .j => some (sext21 (immJ w))
  | .r | .iShift => none

section
variable {w : Word} {i : Instr}

/-- Every branch of the decoder cuts the immediate as the format of the instruction it selects says. -/
theorem decode?_immediate32 (h : decode? w = some i) : immediate32 i = formatImmediate w i.format := by
  unfold decode? decodeLoad decodeOpImm decodeStore decodeOp decodeBranch decodeJalr at h
  (repeat' split at h) <;> cases h <;> rfl

theorem decode?_of_decode (h : decode w = .ok i) : decode? w = some i := by
  unfold decode at h
  split at h <;> cases h
  assumption

theorem decode_immediate32 (h : decode w = .ok i) : immediate32 i = formatImmediate w i.format :=
  decode?_immediate32 (decode?_of_decode h)

end

/-! ### The bits of each format's immediate -/

/-- Sign extension keeps the bits and repeats the sign bit (R8). -/
theorem signExtend_bit {n k : Nat} (x : BitVec n) (hk : k < 32) :
    (x.signExtend 32).getLsbD k = if k < n then x.getLsbD k else x.msb := by
  simp only [BitVec.getLsbD_signExtend, hk, decide_true, Bool.true_and]

section
variable (w : Word) {k : Nat}

/-! The sign bit of every sign-extended immediate is `inst[31]` (R64 to R66, R68). -/

theorem immI_msb : (immI w).msb = w.getLsbD 31 := by grind [immI, BitVec.msb_eq_getLsbD_last]
theorem immS_msb : (immS w).msb = w.getLsbD 31 := by grind [immS, BitVec.msb_eq_getLsbD_last]
theorem immB_msb : (immB w).msb = w.getLsbD 31 := by grind [immB, BitVec.msb_eq_getLsbD_last]
theorem immJ_msb : (immJ w).msb = w.getLsbD 31 := by grind [immJ, BitVec.msb_eq_getLsbD_last]

theorem sext12_immI_bit (hk : k < 32) :
    (sext12 (immI w)).getLsbD k = if k < 11 then w.getLsbD (20 + k) else w.getLsbD 31 := by
  rw [sext12, signExtend_bit _ hk, immI_msb, immI]
  grind

theorem sext12_immS_bit (hk : k < 32) : (sext12 (immS w)).getLsbD k =
    if k < 5 then w.getLsbD (7 + k) else if k < 11 then w.getLsbD (20 + k) else w.getLsbD 31 := by
  rw [sext12, signExtend_bit _ hk, immS_msb, immS]
  grind

theorem sext13_immB_bit (hk : k < 32) : (sext13 (immB w)).getLsbD k =
    if k = 0 then false else if k < 5 then w.getLsbD (7 + k) else if k < 11 then w.getLsbD (20 + k)
    else if k = 11 then w.getLsbD 7 else w.getLsbD 31 := by
  rw [sext13, signExtend_bit _ hk, immB_msb, immB]
  grind

theorem upperImm_immU_bit (hk : k < 32) :
    (upperImm (immU w)).getLsbD k = if k < 12 then false else w.getLsbD k := by
  rw [upperImm, immU, BitVec.getLsbD_append]
  grind

theorem sext21_immJ_bit (hk : k < 32) : (sext21 (immJ w)).getLsbD k =
    if k = 0 then false else if k < 11 then w.getLsbD (20 + k) else if k = 11 then w.getLsbD 20
    else if k < 20 then w.getLsbD k else w.getLsbD 31 := by
  rw [sext21, signExtend_bit _ hk, immJ_msb, immJ]
  grind

end

/-! ### Ranges and evenness -/

/-- A sign-extended immediate has the signed range of its own width (R8). -/
theorem s32_signExtend_range {n : Nat} (hn : n ≤ 32) (imm : BitVec n) :
    -2 ^ (n - 1) ≤ s32 (imm.signExtend 32) ∧ s32 (imm.signExtend 32) < 2 ^ (n - 1) := by
  rw [s32, BitVec.toInt_signExtend_of_le hn]
  exact ⟨BitVec.le_toInt imm, BitVec.toInt_lt⟩

/-- A word whose bit 0 is 0 is even as a signed number. -/
theorem s32_even {v : Word} (h : v.getLsbD 0 = false) : s32 v % 2 = 0 := by
  have low : v.toNat % 2 = 0 := by simpa [BitVec.getLsbD] using h
  rw [s32, BitVec.toInt_eq_toNat_cond]
  split <;> omega

theorem s32_sext12_range (imm : BitVec 12) : -2048 ≤ s32 (sext12 imm) ∧ s32 (sext12 imm) ≤ 2047 := by
  have range := s32_signExtend_range (by decide) imm
  unfold sext12
  omega

theorem s32_sext13_range_of_even {offset : BitVec 13} (h : s32 (sext13 offset) % 2 = 0) :
    -4096 ≤ s32 (sext13 offset) ∧ s32 (sext13 offset) ≤ 4094 := by
  have range := s32_signExtend_range (by decide) offset
  unfold sext13 at *
  omega

theorem s32_sext21_range_of_even {offset : BitVec 21} (h : s32 (sext21 offset) % 2 = 0) :
    -1048576 ≤ s32 (sext21 offset) ∧ s32 (sext21 offset) ≤ 1048574 := by
  have range := s32_signExtend_range (by decide) offset
  unfold sext21 at *
  omega

/-- Settles O7: the immediate is the one of the format, and each format's has its bits and its range. -/
theorem immediatesOfTheFormats : Obligations.ImmediatesOfTheFormats := by
  unfold Obligations.ImmediatesOfTheFormats
  intro w i v hdec himm
  have cut : formatImmediate w i.format = some v := (decode_immediate32 hdec).symm.trans himm
  refine ⟨fun hf => ?i, fun hf => ?s, fun hf => ?b, fun hf => ?u, fun hf => ?j⟩ <;> rw [hf] at cut <;>
    obtain rfl := Option.some.inj cut
  case i => exact ⟨fun _ => sext12_immI_bit w, s32_sext12_range _⟩
  case s => exact ⟨fun _ => sext12_immS_bit w, s32_sext12_range _⟩
  case b =>
    have even := s32_even (sext13_immB_bit w (k := 0) (by decide))
    obtain ⟨lower, upper⟩ := s32_sext13_range_of_even even
    exact ⟨fun _ => sext13_immB_bit w, lower, upper, even⟩
  case u => exact fun _ => upperImm_immU_bit w
  case j =>
    have even := s32_even (sext21_immJ_bit w (k := 0) (by decide))
    obtain ⟨lower, upper⟩ := s32_sext21_range_of_even even
    exact ⟨fun _ => sext21_immJ_bit w, lower, upper, even⟩

end Sys2Proof.Machine
end

section
/-! SUPPORT. Proofs of the family 43_shift.md: the three shifts as arithmetic and bit by bit, and what the six shift
instructions write (spec rule R146). -/

namespace Sys2Proof.Machine

/-! ### The shift amount -/

/-- The 5 least significant bits are the value modulo 32 (R146, C7). -/
theorem shiftAmount_eq (v : Word) : shiftAmount v = u32 v % 32 := by
  rw [shiftAmount, BitVec.extractLsb'_toNat, Nat.shiftRight_zero]

section
variable (v : Word) (n : Nat)

/-! ### The shifts as arithmetic -/

theorem shiftLeft_eq : shiftLeft v n = BitVec.ofNat 32 (u32 v * 2 ^ n) :=
  BitVec.eq_of_toNat_eq <| by rw [shiftLeft, BitVec.toNat_shiftLeft, Nat.shiftLeft_eq, BitVec.toNat_ofNat]

theorem shiftRightU_eq : shiftRightU v n = BitVec.ofNat 32 (u32 v / 2 ^ n) := by
  rw [← Nat.shiftRight_eq_div_pow, ← BitVec.toNat_ushiftRight, BitVec.ofNat_toNat, BitVec.setWidth_eq, shiftRightU]

/-- The quotient is Lean's `/` by a positive number, which rounds toward minus infinity. -/
theorem shiftRightS_eq : shiftRightS v n = to32 (s32 v / 2 ^ n) := by
  rw [shiftRightS, BitVec.sshiftRight, Int.shiftRight_eq_div_pow]
  norm_cast

/-! ### The shifts bit by bit -/

variable {k : Nat}

theorem shiftLeft_bit (hk : k < 32) : (shiftLeft v n).getLsbD k = if k < n then false else v.getLsbD (k - n) := by
  rw [shiftLeft, BitVec.getLsbD_shiftLeft]
  by_cases low : k < n <;> simp [hk, low]

theorem shiftRightU_bit : (shiftRightU v n).getLsbD k = if k + n < 32 then v.getLsbD (k + n) else false := by
  rw [shiftRightU, BitVec.getLsbD_ushiftRight, Nat.add_comm]
  split
  · rfl
  · exact BitVec.getLsbD_of_ge v _ (by omega)

theorem shiftRightS_bit (hk : k < 32) :
    (shiftRightS v n).getLsbD k = if k + n < 32 then v.getLsbD (k + n) else v.getLsbD 31 := by
  rw [shiftRightS, BitVec.getLsbD_sshiftRight, Nat.add_comm n k, BitVec.msb_eq_getLsbD_last]
  simp [hk]

/-! ### A shift by 0 -/

theorem shiftLeft_zero : shiftLeft v 0 = v := BitVec.shiftLeft_zero v
theorem shiftRightU_zero : shiftRightU v 0 = v := BitVec.ushiftRight_zero v
theorem shiftRightS_zero : shiftRightS v 0 = v := BitVec.sshiftRight_zero

end

/-- Settles O23: each shift is R146's formula, which has R146's bits, and each instruction writes its shift. -/
theorem shiftResults : Obligations.ShiftResults := by
  unfold Obligations.ShiftResults
  simp only [← shiftLeft_eq, ← shiftRightU_eq, ← shiftRightS_eq, ← shiftAmount_eq]
  refine ⟨fun v n _ => ⟨fun _ => shiftLeft_bit v n, fun _ _ => shiftRightU_bit v n, fun _ => shiftRightS_bit v n, ?zero⟩,
    fun s rd rs1 rs2 shamt => ?writes⟩
  case zero =>
    rintro rfl
    exact ⟨shiftLeft_zero v, shiftRightU_zero v, shiftRightS_zero v⟩
  case writes =>
    refine ⟨?sll, ?srl, ?sra, ?slli, ?srli, ?srai⟩ <;> exact completes_of_finishReg rfl rfl

end Sys2Proof.Machine
end

section
/-! SUPPORT. Proofs of the family 45_jump.md: the two jumps to a target that is not a multiple of 4 (spec rule R162). -/

namespace Sys2Proof.Machine

/-! ### A multiple of 4 by its low bits -/

/-- Bit 0 of JALR's target is cleared (R161). -/
theorem jalrTarget_bit_zero (s : State) (rs1 : RegIdx) (offset : BitVec 12) :
    (jalrTarget s rs1 offset).getLsbD 0 = false := by
  simp [jalrTarget]

/-- Of the two low bits that decide whether a number is a multiple of 4, an even one has only bit 1 left. -/
theorem toNat_mod_four_ne_zero_iff_of_even {v : Word} (h : v.getLsbD 0 = false) :
    v.toNat % 4 ≠ 0 ↔ v.getLsbD 1 = true := by
  have even : v.toNat % 2 = 0 := by simpa [BitVec.getLsbD] using h
  have bit_one : v.getLsbD 1 = true ↔ v.toNat / 2 % 2 = 1 := by
    simp [BitVec.getLsbD, Nat.testBit_eq_decide_div_mod_eq]
  rw [bit_one]
  omega

/-! ### A jump to a misaligned target -/

/-- A jump to a target that is not a multiple of 4 is the fault MisalignedFetch(target) (R162). -/
theorem jumpLink_misaligned {target : Word} (h : target.toNat % 4 ≠ 0) (rd : RegIdx) (s : State) :
    jumpLink rd target s = .fault (.misalignedFetch target) :=
  if_neg (mt (aligned4_iff target).1 h)

/-- A fault sets `status` and writes nothing else (R200). -/
theorem settle_of_fault {s : State} {o : Result} {f : Fault} (h : o = .fault f) :
    s.settle o = s.withStatus (.faulted f) := by
  rw [h, State.settle]

/-- An instruction that is a jump and link to a target that is not a multiple of 4 faults, and only `status` changes
(R162, R200). -/
theorem misaligned_jump_faults {i : Instr} {rd : RegIdx} {target : Word} {s : State}
    (jumps : exec i s = jumpLink rd target s) (h : target.toNat % 4 ≠ 0) :
    exec i s = .fault (.misalignedFetch target) ∧
      s.settle (exec i s) = s.withStatus (.faulted (.misalignedFetch target)) :=
  have fault := jumps.trans (jumpLink_misaligned h rd s)
  ⟨fault, settle_of_fault fault⟩

/-- Settles O27: both jumps are `jumpLink`, and JALR's target, whose bit 0 is cleared, is misaligned by bit 1 alone. -/
theorem misalignedJumpFaults : Obligations.MisalignedJumpFaults := by
  unfold Obligations.MisalignedJumpFaults
  intro s rd rs1 offJ offI
  have misaligned_iff := toNat_mod_four_ne_zero_iff_of_even (jalrTarget_bit_zero s rs1 offI)
  refine ⟨fun hmis => ?jal, misaligned_iff, fun hbit => ?jalr⟩
  case jal => exact misaligned_jump_faults rfl hmis
  case jalr => exact misaligned_jump_faults rfl (misaligned_iff.2 hbit)

end Sys2Proof.Machine
end

section
/-! SUPPORT. Proofs of the family 46_branch.md: when a branch faults, and which bit of its offset decides it (spec rules
R66, R176, R177). -/

namespace Sys2Proof.Machine

/-! ### The bits of a branch -/

/-- Format B keeps `imm[1]` in bit 8 of the word (R66). -/
theorem encB_bit_eight (imm : BitVec 13) (rs2 rs1 : RegIdx) (funct3 : BitVec 3) (opcode : BitVec 7) :
    (encB imm rs2 rs1 funct3 opcode).getLsbD 8 = imm.getLsbD 1 := by
  rw [encB, BitVec.getLsbD_append, BitVec.getLsbD_append, BitVec.getLsbD_append]
  simp

/-- Sign extension keeps the bits of a branch offset (R8, R66). -/
theorem sext13_bit {offset : BitVec 13} {k : Nat} (hk : k < 13) : (sext13 offset).getLsbD k = offset.getLsbD k := by
  rw [sext13, signExtend_bit _ (by omega), if_pos hk]

/-- From a `pc` that is a multiple of 4, bit 1 of an even offset decides whether the target is one too (R176). -/
theorem branchTarget_misaligned_iff {s : State} {offset : BitVec 13} (hpc : s.pc.toNat % 4 = 0)
    (even : offset.getLsbD 0 = false) : (branchTarget s offset).toNat % 4 ≠ 0 ↔ offset.getLsbD 1 = true := by
  have same_rest : (branchTarget s offset).toNat % 4 = (sext13 offset).toNat % 4 := by
    rw [branchTarget, BitVec.toNat_add]; omega
  rw [same_rest, ← sext13_bit (by decide : 1 < 13)]
  exact toNat_mod_four_ne_zero_iff_of_even ((sext13_bit (by decide)).trans even)

namespace BranchKind

variable (b : BranchKind) (rs1 rs2 : RegIdx) (offset : BitVec 13) (s : State)

/-- A branch term is well formed exactly when bit 0 of its offset is 0 (R66). -/
theorem wellFormed_iff : (b.instr rs1 rs2 offset).wellFormed = true ↔ offset.getLsbD 0 = false := by
  cases b <;> exact beq_iff_eq

/-- Every branch is of format B, so its word holds bit 1 of the offset as `inst[8]` (R66). -/
theorem encode_bit_eight : (encode (b.instr rs1 rs2 offset)).getLsbD 8 = offset.getLsbD 1 := by
  cases b <;> exact encB_bit_eight ..

/-! ### What a branch answers -/

/-- The six branches are one operation on six conditions (R177). -/
theorem exec_eq_branchIf : ∃ c : Bool, exec (b.instr rs1 rs2 offset) s = branchIf c offset s ∧
    (c = true ↔ b.cond (s.readReg rs1) (s.readReg rs2)) := by
  cases b
  case beq => exact ⟨_, rfl, beq_iff_eq⟩
  case bne => exact ⟨_, rfl, by simp [condEq, cond]⟩
  case blt => exact ⟨_, rfl, decide_eq_true_iff⟩
  case bge => exact ⟨_, rfl, by simp [condLtS, cond]⟩
  case bltu => exact ⟨_, rfl, decide_eq_true_iff⟩
  case bgeu => exact ⟨_, rfl, by simp [condLtU, cond]⟩

/-- A branch faults exactly when it is taken to a target that is not a multiple of 4, with that target (R176). -/
theorem exec_fault_iff (f : Fault) : exec (b.instr rs1 rs2 offset) s = .fault f ↔
    b.cond (s.readReg rs1) (s.readReg rs2) ∧ (branchTarget s offset).toNat % 4 ≠ 0 ∧
      f = .misalignedFetch (branchTarget s offset) := by
  obtain ⟨c, hexec, taken_iff⟩ := b.exec_eq_branchIf rs1 rs2 offset s
  rw [hexec, ← taken_iff]
  refine ⟨branchIf_fault, ?_⟩
  rintro ⟨rfl, hmis, rfl⟩
  exact if_neg (mt (aligned4_iff _).1 hmis)

end BranchKind

/-- Settles O29: a branch faults exactly when taken to a misaligned target, which bit 1 of its offset decides. -/
theorem misalignedBranchFaults : Obligations.MisalignedBranchFaults := by
  unfold Obligations.MisalignedBranchFaults
  intro s b rs1 rs2 offset
  have fault_iff := b.exec_fault_iff rs1 rs2 offset s
  refine ⟨fun htaken hmis => ?taken, fun huntaken f hf => ?untaken, fun hpc hwf => ⟨?decided, ?bit⟩⟩
  case taken =>
    have fault := (fault_iff _).2 ⟨htaken, hmis, rfl⟩
    exact ⟨fault, settle_of_fault fault⟩
  case untaken => exact huntaken ((fault_iff f).1 hf).1
  case decided =>
    have even := (b.wellFormed_iff rs1 rs2 offset).1 hwf
    simp only [fault_iff, exists_and_left, exists_eq, and_true, branchTarget_misaligned_iff hpc even]
  case bit => exact (b.encode_bit_eight rs1 rs2 offset).symm

end Sys2Proof.Machine
end

section
/-! SUPPORT. Proofs of the family 30_encoding.md: decoder, encoder and opcode table agree on every instruction and on
every word (spec rules R60 to R76). -/

namespace Sys2Proof

/-! ### The fields of the formats whose immediates are split (S, B, J) -/

section S
variable (imm : BitVec 12) (b a : RegIdx) (f3 : BitVec 3) (op : BitVec 7)

@[simp] theorem rs1Field_encS : rs1Field (encS imm b a f3 op) = a := by
  simp (disch := omega) only [rs1Field, encS, extractLsb'_append_high, extractLsb'_append_low, extractLsb'_whole,
    Nat.reduceSub, regBits_toFin]

@[simp] theorem rs2Field_encS : rs2Field (encS imm b a f3 op) = b := by
  simp (disch := omega) only [rs2Field, encS, extractLsb'_append_high, extractLsb'_append_low, extractLsb'_whole,
    Nat.reduceSub, regBits_toFin]

theorem encS_slices : (encS imm b a f3 op).extractLsb' 25 7 = imm.extractLsb' 5 7 ∧
    (encS imm b a f3 op).extractLsb' 7 5 = imm.extractLsb' 0 5 := by
  constructor <;> simp (disch := omega) only [encS, extractLsb'_append_high, extractLsb'_append_low, extractLsb'_whole,
    Nat.reduceSub]

/-- The immediate is put together again from the slices format S stores (R65). -/
@[simp] theorem immS_encS : immS (encS imm b a f3 op) = imm := by
  obtain ⟨high, low⟩ := encS_slices imm b a f3 op
  rw [immS, high, low, BitVec.extractLsb'_append_extractLsb'_eq_extractLsb' (by rfl)]
  exact extractLsb'_whole imm

end S

section B
variable (imm : BitVec 13) (b a : RegIdx) (f3 : BitVec 3) (op : BitVec 7)

@[simp] theorem rs1Field_encB : rs1Field (encB imm b a f3 op) = a := by
  simp (disch := omega) only [rs1Field, encB, extractLsb'_append_high, extractLsb'_append_low, extractLsb'_whole,
    Nat.reduceSub, regBits_toFin]

@[simp] theorem rs2Field_encB : rs2Field (encB imm b a f3 op) = b := by
  simp (disch := omega) only [rs2Field, encB, extractLsb'_append_high, extractLsb'_append_low, extractLsb'_whole,
    Nat.reduceSub, regBits_toFin]

end B

@[simp] theorem rdField_encJ (imm : BitVec 21) (d : RegIdx) (op : BitVec 7) : rdField (encJ imm d op) = d := by
  simp (disch := omega) only [rdField, encJ, extractLsb'_append_high, extractLsb'_append_low, extractLsb'_whole,
    Nat.reduceSub, regBits_toFin]

/-- The bit an even offset leaves out, as a slice. -/
theorem extractLsb'_zero_one_of_even {n : Nat} {imm : BitVec n} (even : imm.getLsbD 0 = false) :
    0#1 = imm.extractLsb' 0 1 := by
  ext k hk
  obtain rfl : k = 0 := by omega
  simpa using even.symm

theorem encB_slices (imm : BitVec 13) (b a : RegIdx) (f3 : BitVec 3) (op : BitVec 7) :
    (encB imm b a f3 op).extractLsb' 31 1 = imm.extractLsb' 12 1 ∧
    (encB imm b a f3 op).extractLsb' 7 1 = imm.extractLsb' 11 1 ∧
    (encB imm b a f3 op).extractLsb' 25 6 = imm.extractLsb' 5 6 ∧
    (encB imm b a f3 op).extractLsb' 8 4 = imm.extractLsb' 1 4 := by
  refine ⟨?_, ?_, ?_, ?_⟩ <;> simp (disch := omega) only [encB, extractLsb'_append_high, extractLsb'_append_low,
    extractLsb'_whole, Nat.reduceSub]

/-- An offset whose bit 0 is 0 is put together again from the slices format B stores (R66). -/
theorem immB_encB {imm : BitVec 13} (even : imm.getLsbD 0 = false) (b a : RegIdx) (f3 : BitVec 3) (op : BitVec 7) :
    immB (encB imm b a f3 op) = imm := by
  obtain ⟨h12, h11, h5, h1⟩ := encB_slices imm b a f3 op
  rw [immB, h12, h11, h5, h1, extractLsb'_zero_one_of_even even]
  iterate 4 rw [BitVec.extractLsb'_append_extractLsb'_eq_extractLsb' (by rfl)]
  exact extractLsb'_whole imm

theorem encJ_slices (imm : BitVec 21) (d : RegIdx) (op : BitVec 7) :
    (encJ imm d op).extractLsb' 31 1 = imm.extractLsb' 20 1 ∧
    (encJ imm d op).extractLsb' 12 8 = imm.extractLsb' 12 8 ∧
    (encJ imm d op).extractLsb' 20 1 = imm.extractLsb' 11 1 ∧
    (encJ imm d op).extractLsb' 21 10 = imm.extractLsb' 1 10 := by
  refine ⟨?_, ?_, ?_, ?_⟩ <;> simp (disch := omega) only [encJ, extractLsb'_append_high, extractLsb'_append_low,
    extractLsb'_whole, Nat.reduceSub]

/-- An offset whose bit 0 is 0 is put together again from the slices format J stores (R68). -/
theorem immJ_encJ {imm : BitVec 21} (even : imm.getLsbD 0 = false) (d : RegIdx) (op : BitVec 7) :
    immJ (encJ imm d op) = imm := by
  obtain ⟨h20, h12, h11, h1⟩ := encJ_slices imm d op
  rw [immJ, h20, h12, h11, h1, extractLsb'_zero_one_of_even even]
  iterate 4 rw [BitVec.extractLsb'_append_extractLsb'_eq_extractLsb' (by rfl)]
  exact extractLsb'_whole imm

/-! ### Decoding an encoded instruction -/

theorem decode?_encode {i : Instr} (hwf : i.wellFormed = true) : decode? (encode i) = some i := by
  cases i
  case jal => simp [encode, decode?, immJ_encJ (beq_iff_eq.1 hwf)]
  case beq | bne | blt | bge | bltu | bgeu => simp [encode, decode?, decodeBranch, immB_encB (beq_iff_eq.1 hwf)]
  case lui | auipc => simp [encode, decode?]
  case jalr => simp [encode, decode?, decodeJalr]
  case lb | lh | lbu | lhu | lw => simp [encode, decode?, decodeLoad]
  case sb | sh | sw => simp [encode, decode?, decodeStore]
  case addi | xori | ori | andi | slli | srli | srai | slti | sltiu => simp [encode, decode?, decodeOpImm]
  all_goals simp [encode, decode?, decodeOp]

theorem decode_of_decode? {w : Word} {i : Instr} (h : decode? w = some i) : decode w = .ok i := by rw [decode, h]

/-- Settles O2: the decoder finds every field where the encoder of the format puts it. -/
theorem decodeEncodeRoundTrip : Obligations.DecodeEncodeRoundTrip := by
  unfold Obligations.DecodeEncodeRoundTrip
  exact fun _ hwf => decode_of_decode? (decode?_encode hwf)

/-! ### A word is the fields of its format -/

section
variable {w : Word} {f7 : BitVec 7} {f3 : BitVec 3} {op : BitVec 7}

theorem encR_eq (h7 : funct7Field w = f7) (h3 : funct3Field w = f3) (hop : opcodeField w = op) :
    encR f7 (shamtField w) (rs1Field w) f3 (rdField w) op = w := by
  subst h7 h3 hop; exact encR_fields w

theorem encI_eq (h3 : funct3Field w = f3) (hop : opcodeField w = op) :
    encI (immI w) (rs1Field w) f3 (rdField w) op = w := by
  subst h3 hop
  show (w.extractLsb' 20 12 ++ w.extractLsb' 15 5 ++ w.extractLsb' 12 3 ++ w.extractLsb' 7 5 ++ w.extractLsb' 0 7) = w
  iterate 4 rw [BitVec.extractLsb'_append_extractLsb'_eq_extractLsb' (by rfl)]
  exact extractLsb'_whole w

theorem encU_eq (hop : opcodeField w = op) : encU (immU w) (rdField w) op = w := by
  subst hop
  show (w.extractLsb' 12 20 ++ w.extractLsb' 7 5 ++ w.extractLsb' 0 7) = w
  iterate 2 rw [BitVec.extractLsb'_append_extractLsb'_eq_extractLsb' (by rfl)]
  exact extractLsb'_whole w

theorem immS_slices (w : Word) :
    (immS w).extractLsb' 5 7 = w.extractLsb' 25 7 ∧ (immS w).extractLsb' 0 5 = w.extractLsb' 7 5 := by
  constructor <;> simp (disch := omega) only [immS, extractLsb'_append_high, extractLsb'_append_low,
    extractLsb'_whole, Nat.reduceSub]

theorem encS_eq (h3 : funct3Field w = f3) (hop : opcodeField w = op) :
    encS (immS w) (rs2Field w) (rs1Field w) f3 op = w := by
  subst h3 hop
  obtain ⟨high, low⟩ := immS_slices w
  rw [encS, high, low]
  show (w.extractLsb' 25 7 ++ w.extractLsb' 20 5 ++ w.extractLsb' 15 5 ++ w.extractLsb' 12 3 ++ w.extractLsb' 7 5 ++
    w.extractLsb' 0 7) = w
  iterate 5 rw [BitVec.extractLsb'_append_extractLsb'_eq_extractLsb' (by rfl)]
  exact extractLsb'_whole w

theorem immB_slices (w : Word) :
    (immB w).extractLsb' 12 1 = w.extractLsb' 31 1 ∧ (immB w).extractLsb' 5 6 = w.extractLsb' 25 6 ∧
    (immB w).extractLsb' 1 4 = w.extractLsb' 8 4 ∧ (immB w).extractLsb' 11 1 = w.extractLsb' 7 1 := by
  refine ⟨?_, ?_, ?_, ?_⟩ <;> simp (disch := omega) only [immB, extractLsb'_append_high, extractLsb'_append_low,
    extractLsb'_whole, Nat.reduceSub]

theorem encB_eq (h3 : funct3Field w = f3) (hop : opcodeField w = op) :
    encB (immB w) (rs2Field w) (rs1Field w) f3 op = w := by
  subst h3 hop
  obtain ⟨h12, h5, h1, h11⟩ := immB_slices w
  rw [encB, h12, h5, h1, h11]
  show (w.extractLsb' 31 1 ++ w.extractLsb' 25 6 ++ w.extractLsb' 20 5 ++ w.extractLsb' 15 5 ++ w.extractLsb' 12 3 ++
    w.extractLsb' 8 4 ++ w.extractLsb' 7 1 ++ w.extractLsb' 0 7) = w
  iterate 7 rw [BitVec.extractLsb'_append_extractLsb'_eq_extractLsb' (by rfl)]
  exact extractLsb'_whole w

theorem immJ_slices (w : Word) :
    (immJ w).extractLsb' 20 1 = w.extractLsb' 31 1 ∧ (immJ w).extractLsb' 1 10 = w.extractLsb' 21 10 ∧
    (immJ w).extractLsb' 11 1 = w.extractLsb' 20 1 ∧ (immJ w).extractLsb' 12 8 = w.extractLsb' 12 8 := by
  refine ⟨?_, ?_, ?_, ?_⟩ <;> simp (disch := omega) only [immJ, extractLsb'_append_high, extractLsb'_append_low,
    extractLsb'_whole, Nat.reduceSub]

theorem encJ_eq (hop : opcodeField w = op) : encJ (immJ w) (rdField w) op = w := by
  subst hop
  obtain ⟨h20, h1, h11, h12⟩ := immJ_slices w
  rw [encJ, h20, h1, h11, h12]
  show (w.extractLsb' 31 1 ++ w.extractLsb' 21 10 ++ w.extractLsb' 20 1 ++ w.extractLsb' 12 8 ++ w.extractLsb' 7 5 ++
    w.extractLsb' 0 7) = w
  iterate 5 rw [BitVec.extractLsb'_append_extractLsb'_eq_extractLsb' (by rfl)]
  exact extractLsb'_whole w

end

/-! ### Encoding a decoded instruction, opcode by opcode -/

/-- The offset format B and format J spell is even (R66, R68). -/
theorem immB_even (w : Word) : (immB w).getLsbD 0 = false := by
  rw [immB, BitVec.getLsbD_append]; rfl

theorem immJ_even (w : Word) : (immJ w).getLsbD 0 = false := by
  rw [immJ, BitVec.getLsbD_append]; rfl

/-- The term is one the encodings can spell, and the word is its encoding. -/
def Spells (w : Word) (i : Instr) : Prop := i.wellFormed = true ∧ encode i = w

section
variable {w : Word} {i : Instr}

theorem spells_of_decodeOp (hop : opcodeField w = 0b0110011#7) (h : decodeOp w = some i) : Spells w i := by
  unfold decodeOp at h
  split at h <;> cases h <;> exact ⟨rfl, encR_eq ‹_› ‹_› hop⟩

theorem spells_of_decodeOpImm (hop : opcodeField w = 0b0010011#7) (h : decodeOpImm w = some i) : Spells w i := by
  unfold decodeOpImm at h
  split at h
  case h_2 | h_6 => split at h <;> cases h <;> exact ⟨rfl, encR_eq ‹_› ‹_› hop⟩
  all_goals cases h <;> exact ⟨rfl, encI_eq ‹_› hop⟩

theorem spells_of_decodeLoad (hop : opcodeField w = 0b0000011#7) (h : decodeLoad w = some i) : Spells w i := by
  unfold decodeLoad at h
  split at h <;> cases h <;> exact ⟨rfl, encI_eq ‹_› hop⟩

theorem spells_of_decodeStore (hop : opcodeField w = 0b0100011#7) (h : decodeStore w = some i) : Spells w i := by
  unfold decodeStore at h
  split at h <;> cases h <;> exact ⟨rfl, encS_eq ‹_› hop⟩

theorem spells_of_decodeBranch (hop : opcodeField w = 0b1100011#7) (h : decodeBranch w = some i) : Spells w i := by
  unfold decodeBranch at h
  split at h <;> cases h <;> exact ⟨beq_iff_eq.2 (immB_even w), encB_eq ‹_› hop⟩

theorem spells_of_decodeJalr (hop : opcodeField w = 0b1100111#7) (h : decodeJalr w = some i) : Spells w i := by
  unfold decodeJalr at h
  split at h
  · cases h; exact ⟨rfl, encI_eq ‹_› hop⟩
  · cases h

theorem spells_of_decode? (h : decode? w = some i) : Spells w i := by
  unfold decode? at h
  split at h
  · exact spells_of_decodeLoad ‹_› h
  · exact spells_of_decodeOpImm ‹_› h
  · cases h; exact ⟨rfl, encU_eq ‹_›⟩
  · exact spells_of_decodeStore ‹_› h
  · exact spells_of_decodeOp ‹_› h
  · cases h; exact ⟨rfl, encU_eq ‹_›⟩
  · exact spells_of_decodeBranch ‹_› h
  · exact spells_of_decodeJalr ‹_› h
  · cases h; exact ⟨beq_iff_eq.2 (immJ_even w), encJ_eq ‹_›⟩
  · cases h

end

/-- Settles O3: each opcode's decoder keeps every field, and the encoder puts it back. -/
theorem encodeDecodeRoundTrip : Obligations.EncodeDecodeRoundTrip := by
  unfold Obligations.EncodeDecodeRoundTrip
  exact fun _ _ h => spells_of_decode? (Machine.decode?_of_decode h)

/-! ### The decoder and the opcode table -/

/-- Two rows no word matches both of: the patterns differ in a bit both masks keep. -/
def OpcodeRow.Apart (r r' : OpcodeRow) : Prop := r.pattern &&& r'.mask ≠ r'.pattern &&& r.mask

theorem opcodeTable_apart : opcodeTable.Pairwise OpcodeRow.Apart := by
  unfold OpcodeRow.Apart
  decide

/-- A word that matches two rows has the bits of both patterns under both masks. -/
theorem OpcodeRow.not_apart {r r' : OpcodeRow} {w : Word} (h : r.matchesWord w = true)
    (h' : r'.matchesWord w = true) : ¬ r.Apart r' := by
  have both : r.pattern &&& r'.mask = r'.pattern &&& r.mask := by
    rw [← beq_iff_eq.1 h, ← beq_iff_eq.1 h', BitVec.and_assoc, BitVec.and_assoc, BitVec.and_comm r.mask]
  exact not_not_intro both

/-- Settles O5: the rows of the table are pairwise apart. -/
theorem opcodeRowsDisjoint : Obligations.OpcodeRowsDisjoint := by
  unfold Obligations.OpcodeRowsDisjoint
  intro w r hr r' hr' h h'
  by_contra hne
  have : Std.Symm OpcodeRow.Apart := ⟨fun _ _ => Ne.symm⟩
  exact OpcodeRow.not_apart h h' (opcodeTable_apart.forall hr hr' hne)

/-- The word of every instruction matches the row with its mnemonic. -/
theorem encode_matches_row (i : Instr) : Laws.EncodesRow.Statement i := by
  cases i
  case lui => exact Laws.EncodesRow.lui ..
  case auipc => exact Laws.EncodesRow.auipc ..
  case add => exact Laws.EncodesRow.add ..
  case addi => exact Laws.EncodesRow.addi ..
  case sub => exact Laws.EncodesRow.sub ..
  case mul => exact Laws.EncodesRow.mul ..
  case mulh => exact Laws.EncodesRow.mulh ..
  case mulhsu => exact Laws.EncodesRow.mulhsu ..
  case mulhu => exact Laws.EncodesRow.mulhu ..
  case div => exact Laws.EncodesRow.div ..
  case divu => exact Laws.EncodesRow.divu ..
  case rem => exact Laws.EncodesRow.rem ..
  case remu => exact Laws.EncodesRow.remu ..
  case xor => exact Laws.EncodesRow.xor ..
  case xori => exact Laws.EncodesRow.xori ..
  case or => exact Laws.EncodesRow.or ..
  case ori => exact Laws.EncodesRow.ori ..
  case and => exact Laws.EncodesRow.and ..
  case andi => exact Laws.EncodesRow.andi ..
  case sll => exact Laws.EncodesRow.sll ..
  case slli => exact Laws.EncodesRow.slli ..
  case srl => exact Laws.EncodesRow.srl ..
  case srli => exact Laws.EncodesRow.srli ..
  case sra => exact Laws.EncodesRow.sra ..
  case srai => exact Laws.EncodesRow.srai ..
  case slt => exact Laws.EncodesRow.slt ..
  case slti => exact Laws.EncodesRow.slti ..
  case sltiu => exact Laws.EncodesRow.sltiu ..
  case sltu => exact Laws.EncodesRow.sltu ..
  case jal => exact Laws.EncodesRow.jal ..
  case jalr => exact Laws.EncodesRow.jalr ..
  case beq => exact Laws.EncodesRow.beq ..
  case bne => exact Laws.EncodesRow.bne ..
  case blt => exact Laws.EncodesRow.blt ..
  case bge => exact Laws.EncodesRow.bge ..
  case bltu => exact Laws.EncodesRow.bltu ..
  case bgeu => exact Laws.EncodesRow.bgeu ..
  case lb => exact Laws.EncodesRow.lb ..
  case lh => exact Laws.EncodesRow.lh ..
  case lbu => exact Laws.EncodesRow.lbu ..
  case lhu => exact Laws.EncodesRow.lhu ..
  case lw => exact Laws.EncodesRow.lw ..
  case sb => exact Laws.EncodesRow.sb ..
  case sh => exact Laws.EncodesRow.sh ..
  case sw => exact Laws.EncodesRow.sw ..

/-- The row of the instruction a word decodes to (R234). -/
theorem decode_matches_row {w : Word} {i : Instr} (h : decode w = .ok i) :
    ∃ r ∈ opcodeTable, r.matchesWord w = true ∧ r.mnemonic = i.mnemonic := by
  obtain ⟨-, rfl⟩ := spells_of_decode? (Machine.decode?_of_decode h)
  obtain ⟨r, hr, hname, hmatch⟩ := encode_matches_row i
  exact ⟨r, hr, hmatch, hname⟩

/-! A word for which an opcode's decoder selects no instruction has the fields of no row. -/

section
variable {w : Word}

theorem noRow_of_decodeOp_none (h : decodeOp w = none) : NoRow 0b0110011#7 (funct3Field w) (funct7Field w) := by
  rw [noRow_op]
  unfold decodeOp at h
  by_cases hz : funct7Field w = 0b0000000#7
  · rcases funct3_cases (funct3Field w) with h3 | h3 | h3 | h3 | h3 | h3 | h3 | h3 <;> simp [hz, h3] at h
  by_cases hm : funct7Field w = 0b0000001#7
  · rcases funct3_cases (funct3Field w) with h3 | h3 | h3 | h3 | h3 | h3 | h3 | h3 <;> simp [hm, h3] at h
  by_cases ha : funct7Field w = 0b0100000#7
  · exact .inr ⟨ha, fun h3 => by simp [ha, h3] at h, fun h3 => by simp [ha, h3] at h⟩
  · exact .inl ⟨hz, ha, hm⟩

theorem noRow_of_decodeOpImm_none (h : decodeOpImm w = none) : NoRow 0b0010011#7 (funct3Field w) (funct7Field w) := by
  rw [noRow_opImm]
  unfold decodeOpImm at h
  by_cases hleft : funct3Field w = 0b001#3
  · exact .inl ⟨hleft, fun hz => by simp [hleft, hz] at h⟩
  by_cases hright : funct3Field w = 0b101#3
  · exact .inr ⟨hright, fun hz => by simp [hright, hz] at h, fun ha => by simp [hright, ha] at h⟩
  rcases funct3_cases (funct3Field w) with h3 | h3 | h3 | h3 | h3 | h3 | h3 | h3 <;> simp_all

theorem noRow_of_decodeLoad_none (h : decodeLoad w = none) : NoRow 0b0000011#7 (funct3Field w) (funct7Field w) := by
  rw [noRow_load]
  unfold decodeLoad at h
  rcases funct3_cases (funct3Field w) with h3 | h3 | h3 | h3 | h3 | h3 | h3 | h3 <;> simp_all

theorem noRow_of_decodeStore_none (h : decodeStore w = none) : NoRow 0b0100011#7 (funct3Field w) (funct7Field w) := by
  rw [noRow_store]
  unfold decodeStore at h
  rcases funct3_cases (funct3Field w) with h3 | h3 | h3 | h3 | h3 | h3 | h3 | h3 <;> simp_all

theorem noRow_of_decodeBranch_none (h : decodeBranch w = none) : NoRow 0b1100011#7 (funct3Field w) (funct7Field w) := by
  rw [noRow_branch]
  unfold decodeBranch at h
  rcases funct3_cases (funct3Field w) with h3 | h3 | h3 | h3 | h3 | h3 | h3 | h3 <;> simp_all

theorem noRow_of_decodeJalr_none (h : decodeJalr w = none) : NoRow 0b1100111#7 (funct3Field w) (funct7Field w) := by
  rw [noRow_jalr]
  intro h3
  simp [decodeJalr, h3] at h

theorem noRow_of_decode?_none (h : decode? w = none) : NoRow (opcodeField w) (funct3Field w) (funct7Field w) := by
  unfold decode? at h
  split at h
  case h_1 hop => exact hop ▸ noRow_of_decodeLoad_none h
  case h_2 hop => exact hop ▸ noRow_of_decodeOpImm_none h
  case h_4 hop => exact hop ▸ noRow_of_decodeStore_none h
  case h_5 hop => exact hop ▸ noRow_of_decodeOp_none h
  case h_7 hop => exact hop ▸ noRow_of_decodeBranch_none h
  case h_8 hop => exact hop ▸ noRow_of_decodeJalr_none h
  case h_3 | h_6 | h_9 => cases h
  case h_10 =>
    have unused : opcodeField w ∉ usedOpcodes := by simp_all [usedOpcodes]
    simp [NoRow, rowsOf_unused unused]

/-- A word that matches a row is decoded. -/
theorem decode_ok_of_matchesWord {r : OpcodeRow} (hr : r ∈ opcodeTable) (h : r.matchesWord w = true) :
    ∃ i, decode w = .ok i := by
  cases hdec : decode? w with
  | some i => exact ⟨i, decode_of_decode? hdec⟩
  | none => simp [(no_match_iff_noRow w).2 (noRow_of_decode?_none hdec) r hr] at h

end

/-- Settles O4: a decoded word is the word of its instruction, which matches that instruction's row, and no other. -/
theorem decodeFollowsOpcodeTable : Obligations.DecodeFollowsOpcodeTable := by
  unfold Obligations.DecodeFollowsOpcodeTable
  refine fun w => ⟨fun i => decode_matches_row, fun r hr hmatch => ?_⟩
  obtain ⟨i, hdec⟩ := decode_ok_of_matchesWord hr hmatch
  obtain ⟨r', hr', hmatch', hname⟩ := decode_matches_row hdec
  obtain rfl := opcodeRowsDisjoint w r hr r' hr' hmatch hmatch'
  exact ⟨i, hdec, hname.symm⟩

/-! ### Words as bytes -/

/-- The four bytes of a word, put together again, are the word (R34, R43). -/
theorem wordOfBytes_bytesOfWord (w : Word) :
    wordOfBytes (w.extractLsb' 0 8) (w.extractLsb' 8 8) (w.extractLsb' 16 8) (w.extractLsb' 24 8) = w := by
  show w.extractLsb' 24 8 ++ w.extractLsb' 16 8 ++ w.extractLsb' 8 8 ++ w.extractLsb' 0 8 = w
  iterate 3 rw [BitVec.extractLsb'_append_extractLsb'_eq_extractLsb' (by rfl)]
  exact extractLsb'_whole w

theorem decodeBytes_short {bs : List Byte} (h : bs.length < 4) : decodeBytes bs = .error .truncated := by
  match bs, h with
  | [], _ | [_], _ | [_, _], _ | [_, _, _], _ => rfl

section
variable {w : Word} (rest : List Byte)

theorem decodeBytes_of_ok {i : Instr} (h : decode w = .ok i) : decodeBytes (bytesOfWord w ++ rest) = .ok (i, rest) := by
  simp [bytesOfWord, decodeBytes, wordOfBytes_bytesOfWord, h]

theorem decodeBytes_of_error {e : DecodeError} (h : decode w = .error e) :
    decodeBytes (bytesOfWord w ++ rest) = .error e := by
  simp [bytesOfWord, decodeBytes, wordOfBytes_bytesOfWord, h]

end

/-- Settles O8: the bytes of a word are its own, and fewer than four are no instruction. -/
theorem littleEndianInstructionBytes : Obligations.LittleEndianInstructionBytes := by
  unfold Obligations.LittleEndianInstructionBytes
  refine ⟨fun w rest => ?_, fun _ => decodeBytes_short⟩
  cases hdec : decode w with
  | ok i => exact decodeBytes_of_ok rest hdec
  | error e => exact decodeBytes_of_error rest hdec

/-- Settles O1, by running the decoder on the twelve words. -/
theorem sampleWordsDecode : Obligations.SampleWordsDecode := by
  unfold Obligations.SampleWordsDecode
  decide

end Sys2Proof
end

section
/-! SUPPORT. Proofs of the family 10_state.md: what an instruction that completes changes and leaves unchanged, and
which registers it depends on (spec rules R11, R13, R14). -/

namespace Sys2Proof.Machine

/-! ### What an instruction that completes does -/

/-- Where an instruction that completes leaves `pc`: just past itself, or at an aligned target of a control transfer
(R14, R162, R176). -/
def PcAfter (i : Instr) (s : State) (target : Word) : Prop :=
  target = s.pc + 4#32 ∨ (i.isTransfer = true ∧ target.toNat % 4 = 0)

/-- The next states an instruction can answer, said once: one register and `pc`, `pc` alone, or the bytes of a store and
`pc`. -/
inductive Completes (i : Instr) (s : State) : State → Prop where
  | regAndPc (rd : RegIdx) (v target : Word) (hd : i.dest? = some rd) (hpc : PcAfter i s target) :
      Completes i s ((s.writeReg rd v).withPc target)
  | pcOnly (target : Word) (hd : i.dest? = none) (hpc : PcAfter i s target) : Completes i s (s.withPc target)
  | store (w : Width) (rs1 : RegIdx) (offset : BitVec 12) (v : Word) (m : Memory) (hd : i.dest? = none)
      (ha : accessOf i = some (true, w, rs1, offset)) (hm : memWrite s (effAddr s rs1 offset) w v = .ok m) :
      Completes i s (s.withMem m).advance

theorem completes_write_advance {i : Instr} {rd : RegIdx} (hd : i.dest? = some rd) (s : State) (v : Word) :
    Completes i s (s.writeReg rd v).advance :=
  .regAndPc rd v ((s.writeReg rd v).pc + 4#32) hd (.inl (by rw [State.writeReg_pc]))

theorem exec_completes {i : Instr} {s t : State} (h : exec i s = .next t) : Completes i s t := by
  cases exec_shape i s with
  | reg rd v hd _ _ he =>
    rw [he] at h; cases h
    exact completes_write_advance hd s v
  | jump rd target hd ht _ he =>
    obtain ⟨hal, rfl⟩ := jumpLink_next (he ▸ h)
    exact .regAndPc rd _ target hd (.inr ⟨ht, hal⟩)
  | branch c offset hd ht _ he =>
    obtain ⟨-, hal, rfl⟩ | ⟨-, rfl⟩ := branchIf_next (he ▸ h)
    · exact .pcOnly _ hd (.inr ⟨ht, hal⟩)
    · exact .pcOnly _ hd (.inl rfl)
  | load w ext rd rs1 offset hd _ _ he =>
    obtain ⟨v, -, rfl⟩ := loadInto_next (he ▸ h)
    exact completes_write_advance hd s (ext v)
  | store w rs2 rs1 offset hd _ ha he =>
    obtain ⟨m, hm, rfl⟩ := storeFrom_next (he ▸ h)
    exact .store w rs1 offset _ m hd ha hm

/-! ### The frame of an instruction -/

section
variable {i : Instr} {s t : State}

theorem Completes.sameRest (h : Completes i s t) : SameRest s t := by
  cases h <;> simp [SameRest, SameLaunch]

theorem Completes.readReg (h : Completes i s t) {r : RegIdx} (hr : i.dest? ≠ some r) : t.readReg r = s.readReg r := by
  cases h with
  | regAndPc rd v target hd hpc => exact State.writeReg_readReg_ne s v fun heq => hr (heq ▸ hd)
  | pcOnly target hd hpc => rfl
  | store w rs1 offset v m hd ha hm => rfl

theorem storesTo_iff {w : Width} {rs1 : RegIdx} {offset : BitVec 12} (ha : accessOf i = some (true, w, rs1, offset))
    (s : State) (a : Nat) :
    storesTo i s a ↔ (effAddr s rs1 offset).toNat ≤ a ∧ a < (effAddr s rs1 offset).toNat + w.bytes := by
  simp [storesTo, ha]

theorem Completes.mem_read (h : Completes i s t) {a : Nat} (ha : ¬ storesTo i s a) : t.mem.read a = s.mem.read a := by
  cases h with
  | regAndPc rd v target hd hpc => simp
  | pcOnly target hd hpc => rfl
  | store w rs1 offset v m hd hacc hm =>
    rw [storesTo_iff hacc] at ha
    exact memWrite_read_other hm (by omega)

theorem Completes.pcAfter (h : Completes i s t) : PcAfter i s t.pc := by
  cases h with
  | regAndPc rd v target hd hpc => exact hpc
  | pcOnly target hd hpc => exact hpc
  | store w rs1 offset v m hd ha hm => exact .inl rfl

end

/-- Settles O36, from the three ways to complete. -/
theorem instructionFrame : Obligations.InstructionFrame := by
  unfold Obligations.InstructionFrame
  intro i s t h
  have done := exec_completes h
  exact ⟨fun _ => done.readReg, fun _ => done.mem_read, done.sameRest⟩

/-- `pc + 4` of R14 as a number modulo 2^32. -/
theorem add_four_eq (a : Word) : a + 4#32 = BitVec.ofNat 32 (u32 a + 4) :=
  BitVec.eq_of_toNat_eq (by simp)

/-- Settles O37: an instruction that is no control transfer leaves `pc` just past itself. -/
theorem onlyTransfersWritePc : Obligations.OnlyTransfersWritePc := by
  unfold Obligations.OnlyTransfersWritePc
  intro i s t hi h
  obtain hpc | ⟨ht, -⟩ := (exec_completes h).pcAfter
  · rw [hpc, add_four_eq]
  · rw [hi] at ht; cases ht

/-- Settles O10, by the law of register reads after a write. -/
theorem registerReadAfterWrite : Obligations.RegisterReadAfterWrite := by
  unfold Obligations.RegisterReadAfterWrite
  exact fun s rd v => ⟨fun r => State.writeReg_readReg s rd r v, State.writeReg_pc s rd v, fun a => by simp,
    by simp [SameRest, SameLaunch]⟩

/-! ### The registers an instruction depends on -/

/-- What two states must share for an instruction to end in the same shared operation with the same operands. -/
structure SameOperands (i : Instr) (s t : State) : Prop where
  sources : ∀ r ∈ i.sources, t.readReg r = s.readReg r
  pc : t.pc = s.pc
  divCorner : t.divCorner = s.divCorner

/-- The shapes of one instruction in two states that share its operands (R13): the same operation on the same values. -/
inductive TwinShape (i : Instr) (s t : State) : Prop where
  | reg (rd : RegIdx) (v : Word) (hd : i.dest? = some rd) (hs : exec i s = finishReg rd v s)
      (ht : exec i t = finishReg rd v t)
  | jump (rd : RegIdx) (target : Word) (hd : i.dest? = some rd) (hs : exec i s = jumpLink rd target s)
      (ht : exec i t = jumpLink rd target t)
  | branch (c : Bool) (offset : BitVec 13) (hd : i.dest? = none) (hs : exec i s = branchIf c offset s)
      (ht : exec i t = branchIf c offset t)
  | load (w : Width) (ext : BitVec w.bits → Word) (rd rs1 : RegIdx) (offset : BitVec 12) (hd : i.dest? = some rd)
      (h1 : t.readReg rs1 = s.readReg rs1) (hs : exec i s = loadInto w ext rd rs1 offset s)
      (ht : exec i t = loadInto w ext rd rs1 offset t)
  | store (w : Width) (rs2 rs1 : RegIdx) (offset : BitVec 12) (hd : i.dest? = none)
      (h1 : t.readReg rs1 = s.readReg rs1) (h2 : t.readReg rs2 = s.readReg rs2)
      (hs : exec i s = storeFrom w rs2 rs1 offset s) (ht : exec i t = storeFrom w rs2 rs1 offset t)

theorem exec_twinShape {i : Instr} {s t : State} (h : SameOperands i s t) : TwinShape i s t := by
  obtain ⟨hsrc, hpc, hdc⟩ := h
  cases i
  case lui | auipc => exact .reg _ _ rfl rfl (by simp only [exec, execLui, execAuipc, hpc])
  case add a b | sub a b | xor a b | or a b | and a b | sll a b | srl a b | sra a b | slt a b | sltu a b =>
    have ha := hsrc a (.head _)
    have hb := hsrc b (.tail _ (.head _))
    exact .reg _ _ rfl rfl (by simp only [exec, execAdd, execSub, execXor, execOr, execAnd, execSll, execSrl, execSra,
      execSlt, execSltu, ha, hb])
  case mul a b | mulh a b | mulhsu a b | mulhu a b | div a b | divu a b | rem a b | remu a b =>
    have ha := hsrc a (.head _)
    have hb := hsrc b (.tail _ (.head _))
    exact .reg _ _ rfl rfl (by simp only [exec, execMul, execMulh, execMulhsu, execMulhu, execDiv, execDivu, execRem,
      execRemu, hdc, ha, hb])
  case addi a _ | xori a _ | ori a _ | andi a _ | slli a _ | srli a _ | srai a _ | slti a _ | sltiu a _ =>
    have ha := hsrc a (.head _)
    exact .reg _ _ rfl rfl (by simp only [exec, execAddi, execXori, execOri, execAndi, execSlli, execSrli, execSrai,
      execSlti, execSltiu, ha])
  case jal => exact .jump _ _ rfl rfl (by simp only [exec, execJal, jalTarget, hpc])
  case jalr a _ => exact .jump _ _ rfl rfl (by simp only [exec, execJalr, jalrTarget, effAddr, hsrc a (.head _)])
  case beq a b _ | bne a b _ | blt a b _ | bge a b _ | bltu a b _ | bgeu a b _ =>
    have ha := hsrc a (.head _)
    have hb := hsrc b (.tail _ (.head _))
    exact .branch _ _ rfl rfl (by simp only [exec, execBeq, execBne, execBlt, execBge, execBltu, execBgeu, ha, hb])
  case lb a _ | lh a _ | lbu a _ | lhu a _ | lw a _ => exact .load _ _ _ _ _ rfl (hsrc a (.head _)) rfl rfl
  case sb b a _ | sh b a _ | sw b a _ =>
    exact .store _ _ _ _ rfl (hsrc a (.head _)) (hsrc b (.tail _ (.head _))) rfl rfl

/-! ### A register write before or after an operation -/

/-- The data accesses depend on memory and the launch parameters alone (R32, R33, R38). -/
theorem checkAccess_congr {s t : State} (hi : t.image = s.image) (hv : t.memValid = s.memValid) (addr : Word)
    (w : Width) : checkAccess t addr w = checkAccess s addr w := by
  have hvalid : t.inMemValid = s.inMemValid := funext fun a => by rw [State.inMemValid, hi, hv, State.inMemValid]
  rw [checkAccess, hi, hvalid, checkAccess]

theorem memRead_congr {s t : State} (hm : t.mem = s.mem) (hi : t.image = s.image) (hv : t.memValid = s.memValid)
    (addr : Word) (w : Width) : memRead t addr w = memRead s addr w := by
  simp only [memRead, checkAccess_congr hi hv, hm]

theorem memWrite_congr {s t : State} (hm : t.mem = s.mem) (hi : t.image = s.image) (hv : t.memValid = s.memValid)
    (addr : Word) (w : Width) (v : Word) : memWrite t addr w v = memWrite s addr w v := by
  simp only [memWrite, checkAccess_congr hi hv, hm]

theorem mapNext_next (f : State → State) (t : State) : mapNext f (.next t) = .next (f t) := rfl

theorem mapNext_orRaise {α : Type} (f : State → State) (e : Except Fault α) (k : α → Result) :
    mapNext f (orRaise e k) = orRaise e fun a => mapNext f (k a) := by
  cases e <;> rfl

section
variable (s : State) (r : RegIdx) (v : Word)

theorem State.writeReg_withPc (a : Word) : (s.withPc a).writeReg r v = (s.writeReg r v).withPc a := by
  simp only [State.writeReg]
  split <;> rfl

theorem State.writeReg_withMem (m : Memory) : (s.withMem m).writeReg r v = (s.writeReg r v).withMem m := by
  simp only [State.writeReg]
  split <;> rfl

theorem State.writeReg_advance : s.advance.writeReg r v = (s.writeReg r v).advance := by
  rw [State.advance, State.writeReg_withPc, State.advance, State.writeReg_pc]

/-- The second of two writes to one register stays. -/
theorem State.writeReg_writeReg (u : Word) : (s.writeReg r v).writeReg r u = s.writeReg r u := by
  simp only [State.writeReg]
  split
  · rfl
  · simp

/-- Writes to two registers commute. -/
theorem State.writeReg_comm {r rd : RegIdx} (h : rd ≠ r) (u : Word) :
    (s.writeReg r v).writeReg rd u = (s.writeReg rd u).writeReg r v := by
  simp only [State.writeReg]
  split
  · rfl
  · split
    · rfl
    · rw [Vector.set_comm]
      exact fun hval => h (Fin.ext hval.symm)

/-! A write to the register an operation is about to write is lost. -/

theorem finishReg_overwrites (u : Word) : finishReg r u (s.writeReg r v) = finishReg r u s := by
  rw [finishReg, State.writeReg_writeReg, finishReg]

theorem jumpLink_overwrites (target : Word) : jumpLink r target (s.writeReg r v) = jumpLink r target s := by
  rw [jumpLink, State.writeReg_writeReg, State.writeReg_pc, jumpLink]

theorem loadInto_overwrites {w : Width} {ext : BitVec w.bits → Word} {rs1 : RegIdx} {offset : BitVec 12}
    (h : (s.writeReg r v).readReg rs1 = s.readReg rs1) :
    loadInto w ext r rs1 offset (s.writeReg r v) = loadInto w ext r rs1 offset s := by
  simp only [loadInto, effAddr, h, finishReg_overwrites,
    memRead_congr (s.writeReg_mem r v) (s.writeReg_image r v) (s.writeReg_memValid r v)]

/-! A write to a register an operation neither reads nor writes can be done after it. -/

theorem finishReg_writeReg {r rd : RegIdx} (h : rd ≠ r) (u : Word) :
    finishReg rd u (s.writeReg r v) = mapNext (·.writeReg r v) (finishReg rd u s) := by
  rw [finishReg, State.writeReg_comm s v h, ← State.writeReg_advance, finishReg, mapNext]

theorem jumpLink_writeReg {r rd : RegIdx} (h : rd ≠ r) (target : Word) :
    jumpLink rd target (s.writeReg r v) = mapNext (·.writeReg r v) (jumpLink rd target s) := by
  rw [jumpLink, State.writeReg_comm s v h, State.writeReg_pc, ← State.writeReg_withPc, jumpLink]
  split <;> rfl

theorem branchIf_writeReg (c : Bool) (offset : BitVec 13) :
    branchIf c offset (s.writeReg r v) = mapNext (·.writeReg r v) (branchIf c offset s) := by
  rw [branchIf, branchIf, transfer, branchTarget, State.writeReg_pc, ← State.writeReg_withPc, ← State.writeReg_advance]
  split
  · rw [transfer, branchTarget]; split <;> rfl
  · rfl

theorem loadInto_writeReg {r rd : RegIdx} (hne : rd ≠ r) {w : Width} {ext : BitVec w.bits → Word} {rs1 : RegIdx}
    {offset : BitVec 12} (h : (s.writeReg r v).readReg rs1 = s.readReg rs1) :
    loadInto w ext rd rs1 offset (s.writeReg r v) = mapNext (·.writeReg r v) (loadInto w ext rd rs1 offset s) := by
  simp only [loadInto, effAddr, h, mapNext_orRaise, finishReg_writeReg s v hne,
    memRead_congr (s.writeReg_mem r v) (s.writeReg_image r v) (s.writeReg_memValid r v)]

theorem storeFrom_writeReg {w : Width} {rs2 rs1 : RegIdx} {offset : BitVec 12}
    (h1 : (s.writeReg r v).readReg rs1 = s.readReg rs1) (h2 : (s.writeReg r v).readReg rs2 = s.readReg rs2) :
    storeFrom w rs2 rs1 offset (s.writeReg r v) = mapNext (·.writeReg r v) (storeFrom w rs2 rs1 offset s) := by
  simp only [storeFrom, effAddr, h1, h2, mapNext_orRaise, mapNext_next, State.writeReg_advance, State.writeReg_withMem,
    memWrite_congr (s.writeReg_mem r v) (s.writeReg_image r v) (s.writeReg_memValid r v)]

end

/-- A write to a register an instruction does not read leaves its operands. -/
theorem sameOperands_writeReg {i : Instr} {r : RegIdx} (h : r ∉ i.sources) (s : State) (v : Word) :
    SameOperands i s (s.writeReg r v) where
  sources _ hr' := State.writeReg_readReg_ne s v fun heq => h (heq ▸ hr')
  pc := State.writeReg_pc s r v
  divCorner := State.writeReg_divCorner s r v

/-- Settles O38: with and without the write the instruction has one shape, and each shape lets the write pass. -/
theorem unnamedRegistersDoNotMatter : Obligations.UnnamedRegistersDoNotMatter := by
  unfold Obligations.UnnamedRegistersDoNotMatter
  intro i s r v hr
  have ne_of_dest {rd : RegIdx} (hd : i.dest? = some rd) (hne : i.dest? ≠ some r) : rd ≠ r := fun heq => hne (heq ▸ hd)
  have eq_of_dest {rd : RegIdx} (hd : i.dest? = some rd) (heq : i.dest? = some r) : rd = r :=
    Option.some.inj (hd.symm.trans heq)
  cases exec_twinShape (sameOperands_writeReg hr s v) with
  | reg rd u hd hs ht =>
    rw [hs, ht]
    exact ⟨fun h => finishReg_writeReg s v (ne_of_dest hd h) u, fun h => eq_of_dest hd h ▸ finishReg_overwrites s _ v u⟩
  | jump rd target hd hs ht =>
    rw [hs, ht]
    exact ⟨fun h => jumpLink_writeReg s v (ne_of_dest hd h) target,
      fun h => eq_of_dest hd h ▸ jumpLink_overwrites s _ v target⟩
  | branch c offset hd hs ht =>
    rw [hs, ht]
    exact ⟨fun _ => branchIf_writeReg s r v c offset, fun h => by rw [hd] at h; cases h⟩
  | load w ext rd rs1 offset hd h1 hs ht =>
    rw [hs, ht]
    refine ⟨fun h => loadInto_writeReg s v (ne_of_dest hd h) h1, fun h => ?_⟩
    obtain rfl := eq_of_dest hd h
    exact loadInto_overwrites s rd v h1
  | store w rs2 rs1 offset hd h1 h2 hs ht =>
    rw [hs, ht]
    exact ⟨fun _ => storeFrom_writeReg s r v h1 h2, fun h => by rw [hd] at h; cases h⟩

end Sys2Proof.Machine
end

section
/-! SUPPORT. Proofs of the families 20_memory.md, 47_load.md and 48_store.md: `MemRead`, reads after writes of other
widths, the loads and the stores (spec rules R30 to R40, R185, R193). -/

namespace Sys2Proof.Machine

/-! ### Addresses -/

/-- Sign extension is reading as two's complement (R8), so adding an extended offset is adding the offset modulo 2^32
(R30). -/
theorem add_signExtend_eq {n : Nat} (a : Word) (offset : BitVec n) :
    a + offset.signExtend 32 = to32 ((u32 a : Int) + offset.toInt) := by
  rw [to32, BitVec.ofInt_add, BitVec.ofInt_natCast, BitVec.ofNat_toNat, BitVec.setWidth_eq, BitVec.signExtend]

/-- Settles O14: the sign-extended offset is the offset as an integer. -/
theorem effectiveAddress : Obligations.EffectiveAddress := by
  unfold Obligations.EffectiveAddress
  exact fun s rs1 offset => add_signExtend_eq (s.readReg rs1) offset

/-- The address of byte `k` of an access as a word. -/
theorem ofNat_toNat_add (addr : Word) (k : Nat) : BitVec.ofNat 32 (addr.toNat + k) = addr + BitVec.ofNat 32 k := by
  rw [BitVec.ofNat_add, BitVec.ofNat_toNat, BitVec.setWidth_eq]

/-! ### The outcomes of `MemRead` -/

section
variable {s : State} {addr : Word} {w : Width}

/-- The faults of `MemRead`: those of its checks, then the lowest byte without a value (R32, R23). -/
theorem memRead_error_iff {f : Fault} : memRead s addr w = .error f ↔ checkAccess s addr w = .error f ∨
    (AccessAllowed s addr w ∧ ∃ k < w.bytes, s.mem.read (addr.toNat + k) = none ∧
      (∀ j < k, s.mem.read (addr.toNat + j) ≠ none) ∧ f = .unwrittenRead (addr + BitVec.ofNat 32 k)) := by
  simp only [AccessAllowed, ← checkAccess_ok_iff, ← ofNat_toNat_add, ← Memory.readBytes_error_iff, memRead]
  cases checkAccess s addr w with
  | error g => simp
  | ok u => cases s.mem.readBytes addr.toNat w.bytes <;> simp

theorem AccessAllowed.memRead_ok (h : AccessAllowed s addr w) {v : BitVec w.bits} (hv : HoldsLE s addr w v) :
    memRead s addr w = .ok v :=
  (memRead_ok_iff _ _ _ _).2 ⟨(checkAccess_ok_iff _ _ _).2 h, hv⟩

/-- An allowed `MemRead` of bytes not all of which have a value names one without (R23). -/
theorem AccessAllowed.memRead_unwritten (h : AccessAllowed s addr w)
    (hnone : ∃ k < w.bytes, s.mem.read (addr.toNat + k) = none) : ∃ k < w.bytes,
      s.mem.read (addr.toNat + k) = none ∧ memRead s addr w = .error (.unwrittenRead (addr + BitVec.ofNat 32 k)) := by
  cases hread : memRead s addr w with
  | ok v =>
    obtain ⟨k, hk, hnone⟩ := hnone
    cases hnone.symm.trans (((memRead_ok_iff _ _ _ _).1 hread).2 k hk)
  | error f =>
    obtain hcheck | ⟨-, k, hk, hnone, -, rfl⟩ := memRead_error_iff.1 hread
    · cases hcheck.symm.trans ((checkAccess_ok_iff _ _ _).2 h)
    · exact ⟨k, hk, hnone, rfl⟩

theorem checkAccess_misaligned (h : addr.toNat % w.bytes ≠ 0) :
    checkAccess s addr w = .error (.misalignedAccess addr) :=
  (checkAccess_error_iff _ _ _ _).2 (.inl ⟨h, rfl⟩)

theorem checkAccess_image (hal : addr.toNat % w.bytes = 0)
    (h : ∃ k < w.bytes, s.image.contains (addr.toNat + k) = true) :
    checkAccess s addr w = .error (.imageAccess addr) :=
  (checkAccess_error_iff _ _ _ _).2 (.inr (.inl ⟨hal, h, rfl⟩))

theorem checkAccess_invalid (hal : addr.toNat % w.bytes = 0)
    (hout : ∀ k < w.bytes, s.image.contains (addr.toNat + k) = false)
    (h : ∃ k < w.bytes, s.inMemValid (addr.toNat + k) = false) :
    checkAccess s addr w = .error (.accessFault addr) :=
  (checkAccess_error_iff _ _ _ _).2 (.inr (.inr ⟨hal, hout, h, rfl⟩))

end

/-- Settles O11: the faults of `memRead_error_iff` in order, and the value of `memRead_ok_iff`. -/
theorem memReadChecksThenValue : Obligations.MemReadChecksThenValue := by
  unfold Obligations.MemReadChecksThenValue
  intro s addr w
  refine ⟨fun hmis => ?_, fun hal himg => ?_, fun hal hout hinv => ?_, fun hok k hk hnone hfirst => ?_,
    fun hok v => hok.memRead_ok⟩
  · exact memRead_error_iff.2 (.inl (checkAccess_misaligned hmis))
  · exact memRead_error_iff.2 (.inl (checkAccess_image hal himg))
  · exact memRead_error_iff.2 (.inl (checkAccess_invalid hal hout hinv))
  · exact memRead_error_iff.2 (.inr ⟨hok, k, hk, hnone, hfirst, rfl⟩)

/-! ### Reads inside a write -/

/-- The widths divide each other, so an offset that is a multiple of the narrower one keeps it aligned. -/
theorem Width.bytes_dvd_of_le {w w' : Width} (h : w'.bytes ≤ w.bytes) : w'.bytes ∣ w.bytes := by
  cases w <;> cases w' <;> revert h <;> decide

section
variable {s : State} {addr : Word} {w w' : Width} {k : Nat}

/-- An access inside an allowed one does not wrap. -/
theorem AccessAllowed.toNat_add (h : AccessAllowed s addr w) (hk : k < w.bytes) :
    (addr + BitVec.ofNat 32 k).toNat = addr.toNat + k := by
  have fits := aligned_access_fits addr w h.1
  rw [BitVec.toNat_add, BitVec.toNat_ofNat]
  omega

theorem AccessAllowed.inside (h : AccessAllowed s addr w) (hk : k + w'.bytes ≤ w.bytes) (hal : k % w'.bytes = 0) :
    AccessAllowed s (addr + BitVec.ofNat 32 k) w' := by
  have pos := w'.bytes_pos
  obtain ⟨aligned, valid⟩ := h
  rw [AccessAllowed, AccessAllowed.toNat_add ⟨aligned, valid⟩ (by omega)]
  refine ⟨?_, fun j hj => by rw [Nat.add_assoc]; exact valid (k + j) (by omega)⟩
  have base : w'.bytes ∣ addr.toNat := (Width.bytes_dvd_of_le (by omega)).trans (Nat.dvd_of_mod_eq_zero aligned)
  exact Nat.mod_eq_zero_of_dvd (base.add (Nat.dvd_of_mod_eq_zero hal))

/-- A read inside the bytes just written gives the part of the value written there (R35, R40). -/
theorem memRead_inside_memWrite {v : Word} {m : Memory} (h : memWrite s addr w v = .ok m)
    (hk : k + w'.bytes ≤ w.bytes) (hal : k % w'.bytes = 0) :
    memRead (s.withMem m) (addr + BitVec.ofNat 32 k) w' = .ok (v.extractLsb' (8 * k) w'.bits) := by
  have pos := w'.bytes_pos
  have allowed : AccessAllowed s addr w := (checkAccess_ok_iff _ _ _).1 ((memWrite_ok_iff _ _ _ _ _).1 h).1
  refine (memRead_ok_iff _ _ _ _).2 ⟨(checkAccess_ok_iff _ _ _).2 (allowed.inside hk hal), fun j hj => ?_⟩
  rw [allowed.toNat_add (by omega), Nat.add_assoc, State.withMem_mem, memWrite_read_written h (by omega),
    extractLsb'_extractLsb' _ _ _ _ _ (by rw [Width.bits]; omega), Nat.mul_add]

/-- A read at the address just written gives the low bytes of the value (R40). -/
theorem memRead_low_of_memWrite {v : Word} {m : Memory} (h : memWrite s addr w v = .ok m) (hle : w'.bytes ≤ w.bytes) :
    memRead (s.withMem m) addr w' = .ok (v.extractLsb' 0 w'.bits) := by
  have read := memRead_inside_memWrite h (w' := w') (k := 0) (by omega) (Nat.zero_mod _)
  rwa [BitVec.add_zero] at read

end

/-- Four bytes side by side hold, little-endian, the word that is their concatenation (R34, R35). -/
theorem holdsLE_word {s : State} {a : Word} {b0 b1 b2 b3 : Byte} (h0 : s.mem.read a.toNat = some b0)
    (h1 : s.mem.read (a.toNat + 1) = some b1) (h2 : s.mem.read (a.toNat + 2) = some b2)
    (h3 : s.mem.read (a.toNat + 3) = some b3) : HoldsLE s a .word (b3 ++ b2 ++ b1 ++ b0 : BitVec 32) := by
  intro k hk
  have byte_cases : k = 0 ∨ k = 1 ∨ k = 2 ∨ k = 3 := by simp only [Width.bytes] at hk; omega
  rcases byte_cases with rfl | rfl | rfl | rfl
  · rw [Nat.add_zero, h0]
    simp (disch := omega) only [extractLsb'_append_low, extractLsb'_whole, Nat.mul_zero]
  · rw [h1]
    simp (disch := omega) only [extractLsb'_append_high, extractLsb'_append_low, extractLsb'_whole, Nat.reduceSub,
      Nat.reduceMul]
  · rw [h2]
    simp (disch := omega) only [extractLsb'_append_high, extractLsb'_append_low, extractLsb'_whole, Nat.reduceSub,
      Nat.reduceMul]
  · rw [h3]
    simp (disch := omega) only [extractLsb'_append_high, extractLsb'_whole, Nat.reduceSub, Nat.reduceMul]

/-- Settles O13: the narrow reads lie inside the word write, and a word read joins its four bytes. -/
theorem mixedWidthReads : Obligations.MixedWidthReads := by
  unfold Obligations.MixedWidthReads
  refine ⟨fun s a v m h => ⟨fun k hk => ?bytes, ?low, ?high⟩, fun s a b0 b1 b2 b3 hok h0 h1 h2 h3 => ?word⟩
  case bytes => exact memRead_inside_memWrite h (w' := .byte) hk (Nat.mod_one k)
  case low => exact memRead_low_of_memWrite h (w' := .half) (by decide)
  case high => exact memRead_inside_memWrite h (w' := .half) (k := 2) (by decide) rfl
  case word => exact hok.memRead_ok (holdsLE_word h0 h1 h2 h3)

/-! ### The loads -/

section
variable {s : State} {w : Width} {ext : BitVec w.bits → Word} {rd rs1 : RegIdx} {offset : BitVec 12}

theorem loadInto_of_ok {v : BitVec w.bits} (h : memRead s (effAddr s rs1 offset) w = .ok v) :
    loadInto w ext rd rs1 offset s = finishReg rd (ext v) s := by
  rw [loadInto, h, orRaise]

theorem loadInto_of_error {f : Fault} (h : memRead s (effAddr s rs1 offset) w = .error f) :
    loadInto w ext rd rs1 offset s = .fault f := by
  rw [loadInto, h, orRaise, raise]

end

/-- The value a load of a kind puts in `rd` (R31, R185). -/
def LoadKind.extend (l : LoadKind) (v : BitVec l.width.bits) : Word :=
  if l.signed then v.signExtend 32 else v.setWidth 32

/-- The five loads are one operation on a width and an extension; LW's 32 bits need none (R185). -/
theorem LoadKind.exec_eq (l : LoadKind) (rd rs1 : RegIdx) (offset : BitVec 12) (s : State) :
    exec (l.instr rd rs1 offset) s = loadInto l.width l.extend rd rs1 offset s := by
  cases l
  case lw =>
    have whole : LoadKind.lw.extend = zextTo32 :=
      funext fun v => (BitVec.signExtend_eq v).trans (BitVec.setWidth_eq v).symm
    rw [whole]; rfl
  all_goals rfl

/-- Settles O31: an allowed read gives the value the bytes hold. -/
theorem loadsComplete : Obligations.LoadsComplete := by
  unfold Obligations.LoadsComplete
  intro s l rd rs1 offset v hok hv
  exact completes_of_finishReg ((l.exec_eq rd rs1 offset s).trans (loadInto_of_ok (hok.memRead_ok hv))) rfl

/-- Settles O32: the faults of a load are those of its read. -/
theorem loadsFaultInOrder : Obligations.LoadsFaultInOrder := by
  unfold Obligations.LoadsFaultInOrder
  rintro s l rd rs1 offset addr rfl
  have fault {f : Fault} (h : memRead s (effAddr s rs1 offset) l.width = .error f) :
      exec (l.instr rd rs1 offset) s = .fault f := (l.exec_eq rd rs1 offset s).trans (loadInto_of_error h)
  refine ⟨fun hmis => ?_, fun hal himg => ?_, fun hal hout hinv => ?_, fun hok hnone => ?_, fun f => settle_of_fault⟩
  · exact fault (memRead_error_iff.2 (.inl (checkAccess_misaligned hmis)))
  · exact fault (memRead_error_iff.2 (.inl (checkAccess_image hal himg)))
  · exact fault (memRead_error_iff.2 (.inl (checkAccess_invalid hal hout hinv)))
  · obtain ⟨k, hk, hread, herr⟩ := hok.memRead_unwritten hnone
    exact ⟨k, hk, hread, fault herr⟩

/-! ### The stores -/

section
variable {s : State} {w : Width} {rs2 rs1 : RegIdx} {offset : BitVec 12}

theorem storeFrom_of_ok {m : Memory} (h : memWrite s (effAddr s rs1 offset) w (s.readReg rs2) = .ok m) :
    storeFrom w rs2 rs1 offset s = .next (s.withMem m).advance := by
  rw [storeFrom, h, orRaise]

theorem storeFrom_of_error {f : Fault} (h : checkAccess s (effAddr s rs1 offset) w = .error f) :
    storeFrom w rs2 rs1 offset s = .fault f := by
  rw [storeFrom, (memWrite_error_iff _ _ _ _ _).2 h, orRaise, raise]

end

/-- The three stores are one operation on a width (R193). -/
theorem StoreKind.exec_eq (k : StoreKind) (rs2 rs1 : RegIdx) (offset : BitVec 12) (s : State) :
    exec (k.instr rs2 rs1 offset) s = storeFrom k.width rs2 rs1 offset s := by
  cases k <;> rfl

/-- Settles O33: an allowed write answers a memory with the bytes of `memWrite_read`. -/
theorem storesComplete : Obligations.StoresComplete := by
  unfold Obligations.StoresComplete
  intro s k rs2 rs1 offset hok
  obtain ⟨m, hm⟩ := hok.memWrite_ok (s.readReg rs2)
  refine ⟨_, (k.exec_eq rs2 rs1 offset s).trans (storeFrom_of_ok hm), fun j => memWrite_read_written hm,
    fun a => memWrite_read_other hm, fun r => rfl, rfl, rfl, rfl, SameLaunch.refl s⟩

/-- Settles O34: the faults of a store are those of its checks. -/
theorem storesFaultInOrder : Obligations.StoresFaultInOrder := by
  unfold Obligations.StoresFaultInOrder
  rintro s k rs2 rs1 offset addr rfl
  have fault {f : Fault} (h : checkAccess s (effAddr s rs1 offset) k.width = .error f) :
      exec (k.instr rs2 rs1 offset) s = .fault f := (k.exec_eq rs2 rs1 offset s).trans (storeFrom_of_error h)
  exact ⟨fun hmis => fault (checkAccess_misaligned hmis), fun hal himg => fault (checkAccess_image hal himg),
    fun hal hout hinv => fault (checkAccess_invalid hal hout hinv), fun f => settle_of_fault⟩

/-! ### A load after a store -/

/-- After a store that completes, a load of its width from the same base and offset completes with the low bytes that
were stored: the store changes neither the base register nor what may be read (R40). -/
theorem load_after_store {w : Width} {rs2 rs1 rd : RegIdx} {offset : BitVec 12} {s t : State} {i : Instr}
    {ext : BitVec w.bits → Word} (hstore : storeFrom w rs2 rs1 offset s = .next t)
    (hload : exec i t = loadInto w ext rd rs1 offset t) :
    ∃ u, exec i t = .next u ∧ WritesReg t u rd (ext ((s.readReg rs2).extractLsb' 0 w.bits)) := by
  obtain ⟨m, hm, rfl⟩ := storeFrom_next hstore
  have read : memRead (s.withMem m).advance (effAddr (s.withMem m).advance rs1 offset) w =
      .ok ((s.readReg rs2).extractLsb' 0 w.bits) :=
    (memRead_congr (s := s.withMem m) rfl rfl rfl _ w).trans (memRead_low_of_memWrite hm le_rfl)
  exact completes_of_finishReg (hload.trans (loadInto_of_ok read)) rfl

/-- Settles O35: each load reads the width of its store. -/
theorem storeThenLoad : Obligations.StoreThenLoad := by
  unfold Obligations.StoreThenLoad
  refine fun s t rd rs1 rs2 offset => ⟨fun h => ?word, fun h => ⟨?lh, ?lhu⟩, fun h => ⟨?lb, ?lbu⟩⟩
  case word =>
    have whole : zextTo32 ((s.readReg rs2).extractLsb' 0 32) = s.readReg rs2 :=
      (BitVec.setWidth_eq _).trans (extractLsb'_whole _)
    exact whole ▸ load_after_store (w := .word) h rfl
  case lh => exact load_after_store (w := .half) (ext := sextTo32) h rfl
  case lhu => exact load_after_store (w := .half) (ext := zextTo32) h rfl
  case lb => exact load_after_store (w := .byte) (ext := sextTo32) h rfl
  case lbu => exact load_after_store (w := .byte) (ext := zextTo32) h rfl

end Sys2Proof.Machine
end

section
/-! SUPPORT. Proofs of the family 60_exceptions.md: which instruction raises which fault, and that none is refused (spec
rules R200, R201). -/

namespace Sys2Proof.Machine

/-! ### The faults of an instruction -/

section
variable {i : Instr} {s : State} {f : Fault} {w : Width} {rs1 : RegIdx} {offset : BitVec 12}

/-- The checks of an access raise the faults R201 lists for a load or store, with its effective address. -/
theorem mayRaise_of_checkAccess {stores : Bool} (ha : accessOf i = some (stores, w, rs1, offset))
    (h : checkAccess s (effAddr s rs1 offset) w = .error f) : mayRaise i s f := by
  obtain ⟨hmis, rfl⟩ | ⟨-, himg, rfl⟩ | ⟨-, -, hinv, rfl⟩ := (checkAccess_error_iff _ _ _ _).1 h
  · exact ⟨stores, w, rs1, offset, ha, rfl, hmis⟩
  · exact ⟨stores, w, rs1, offset, ha, rfl, himg⟩
  · exact ⟨stores, w, rs1, offset, ha, rfl, hinv⟩

theorem mayRaise_of_memRead (ha : accessOf i = some (false, w, rs1, offset))
    (h : memRead s (effAddr s rs1 offset) w = .error f) : mayRaise i s f := by
  obtain hcheck | ⟨hok, k, hk, hnone, -, rfl⟩ := memRead_error_iff.1 h
  · exact mayRaise_of_checkAccess ha hcheck
  · have addr := hok.toNat_add hk
    exact ⟨w, rs1, offset, ha, ⟨k, hk, addr⟩, addr ▸ hnone⟩

theorem mayRaise_misalignedFetch {target : Word} (ht : i.isTransfer = true)
    (h : target.toNat % 4 ≠ 0 ∧ f = .misalignedFetch target) : mayRaise i s f := by
  obtain ⟨hmis, rfl⟩ := h
  exact ⟨ht, hmis⟩

theorem exec_mayRaise (h : exec i s = .fault f) : mayRaise i s f := by
  cases exec_shape i s with
  | reg rd v _ _ _ he => rw [he] at h; cases h
  | jump rd target _ ht _ he => exact mayRaise_misalignedFetch ht (jumpLink_fault (he ▸ h))
  | branch c offset _ ht _ he => exact mayRaise_misalignedFetch ht (branchIf_fault (he ▸ h)).2
  | load w ext rd rs1 offset _ _ ha he => exact mayRaise_of_memRead ha (loadInto_fault (he ▸ h))
  | store w rs2 rs1 offset _ _ ha he =>
    exact mayRaise_of_checkAccess ha ((memWrite_error_iff _ _ _ _ _).1 (storeFrom_fault (he ▸ h)))

end

/-- Settles O39, by the faults of each shape of instruction. -/
theorem faultsAreTheOnesListed : Obligations.FaultsAreTheOnesListed := by
  unfold Obligations.FaultsAreTheOnesListed
  exact fun _ _ _ => exec_mayRaise

/-! ### No refusal -/

/-- The outcome is a next state or a fault. -/
def Answers (o : Result) : Prop := ∀ r, o ≠ .refused r

theorem answers_next (s : State) : Answers (.next s) := fun _ h => by cases h

theorem answers_raise (f : Fault) : Answers (raise f) := fun _ h => by cases h

theorem answers_ite {p : Prop} [Decidable p] {o o' : Result} (h : Answers o) (h' : Answers o') :
    Answers (if p then o else o') := by
  split <;> assumption

theorem answers_orRaise {α : Type} (e : Except Fault α) {k : α → Result} (h : ∀ a, Answers (k a)) :
    Answers (orRaise e k) := by
  cases e with
  | ok a => exact h a
  | error f => exact answers_raise f

theorem answers_countCompleted {o : Result} (h : Answers o) : Answers (countCompleted o) := by
  cases o with
  | next s => exact answers_next _
  | fault f => exact answers_raise f
  | refused r => exact absurd rfl (h r)

theorem exec_answers (i : Instr) (s : State) : Answers (exec i s) := by
  cases exec_shape i s with
  | reg rd v _ _ _ he => exact he ▸ answers_next _
  | jump rd target _ _ _ he => exact he ▸ answers_ite (answers_next _) (answers_raise _)
  | branch c offset _ _ _ he =>
    exact he ▸ answers_ite (answers_ite (answers_next _) (answers_raise _)) (answers_next _)
  | load w ext rd rs1 offset _ _ _ he => exact he ▸ answers_orRaise _ fun _ => answers_next _
  | store w rs2 rs1 offset _ _ _ he => exact he ▸ answers_orRaise _ fun _ => answers_next _

theorem runInstr_answers (s : State) : Answers (runInstr s) := by
  refine answers_orRaise _ fun w => ?_
  cases decode w with
  | ok i => exact answers_countCompleted (exec_answers i s)
  | error e => exact answers_raise _

theorem step_answers (s : State) : Answers (step s) := by
  unfold step
  cases s.status with
  | running => exact answers_ite (answers_next _) (runInstr_answers s)
  | ended => exact answers_next s
  | faulted f => exact answers_raise f

/-- Settles O40: every shape of instruction answers, and so does every branch of the step. -/
theorem nothingIsRefused : Obligations.NothingIsRefused := by
  unfold Obligations.NothingIsRefused
  exact ⟨exec_answers, step_answers⟩

end Sys2Proof.Machine
end

section
/-! SUPPORT. Proofs about the fetch and the step: the fetch reads the image, the step runs what was fetched, and a run
that is over stays over (spec rules R43, R200, R203, R234, R236, R237). -/

namespace Sys2Proof.Machine

/-! ### The fetch (R43) -/

theorem Image.contains_iff (im : Image) (a : Nat) :
    im.contains a = true ↔ im.base.toNat ≤ a ∧ a < im.base.toNat + 4 * im.words.length := by
  simp [Image.contains]

section
variable {s : State}

theorem fetch_misaligned (h : s.pc.toNat % 4 ≠ 0) : fetch s = .error (.misalignedFetch s.pc) :=
  if_pos (mt (aligned4_iff _).1 h)

theorem fetch_outside (hal : s.pc.toNat % 4 = 0) (h : s.image.contains s.pc.toNat = false) :
    fetch s = .error (.fetchAccessFault s.pc) := by
  simp [fetch, (aligned4_iff _).2 hal, h]

/-- In an image of R43's form an aligned `pc` inside the image has its four bytes there, and a word in the list. -/
theorem fetch_inside (hwf : s.image.wf) (hal : s.pc.toNat % 4 = 0) (h : s.image.contains s.pc.toNat = true) :
    ∃ w, s.image.words[(s.pc.toNat - s.image.base.toNat) / 4]? = some w ∧ fetch s = .ok w := by
  obtain ⟨hbase, -⟩ := hwf
  obtain ⟨hle, hlt⟩ := (s.image.contains_iff _).1 h
  have last : s.image.contains (s.pc.toNat + 3) = true := (s.image.contains_iff _).2 (by omega)
  have index : (s.pc.toNat - s.image.base.toNat) / 4 < s.image.words.length := by omega
  have word := List.getElem?_eq_getElem index
  exact ⟨_, word, by simp [fetch, (aligned4_iff _).2 hal, h, last, word]⟩

/-- The faults of the fetch (R43). -/
theorem fetch_error {f : Fault} (h : fetch s = .error f) :
    (s.pc.toNat % 4 ≠ 0 ∧ f = .misalignedFetch s.pc) ∨ f = .fetchAccessFault s.pc := by
  unfold fetch at h
  split at h
  · next hal => cases h; exact .inl ⟨mt (aligned4_iff _).2 hal, rfl⟩
  · split at h
    · cases h; exact .inr rfl
    · split at h <;> cases h; exact .inr rfl

end

/-- The fetch depends on `pc` and the image alone. -/
theorem fetch_congr {s t : State} (hpc : t.pc = s.pc) (hi : t.image = s.image) : fetch t = fetch s := by
  rw [fetch, hpc, hi, fetch]

/-- Settles O41, case by case of the fetch. -/
theorem fetchReadsTheImage : Obligations.FetchReadsTheImage := by
  unfold Obligations.FetchReadsTheImage
  exact fun s hwf => ⟨fetch_misaligned, fetch_outside, fetch_inside hwf⟩

/-! ### The step -/

section
variable {s : State} {w : Word} {f : Fault}

theorem step_of_running (hrun : s.status = .running) (hpc : s.pc ≠ s.endPc) : step s = runInstr s := by
  simp [step, hrun, hpc]

theorem step_of_ended (h : s.status = .ended) : step s = .next s := by
  rw [step, h]

theorem step_of_faulted (h : s.status = .faulted f) : step s = .fault f := by
  rw [step, h]; rfl

theorem runInstr_of_fetch_error (h : fetch s = .error f) : runInstr s = .fault f := by
  rw [runInstr, h, orRaise, raise]

theorem runInstr_of_decode_ok {i : Instr} (hf : fetch s = .ok w) (hd : decode w = .ok i) :
    runInstr s = countCompleted (exec i s) := by
  simp only [runInstr, hf, orRaise, hd]

theorem countCompleted_fault {o : Result} (h : countCompleted o = .fault f) : o = .fault f := by
  cases o <;> cases h
  rfl

/-- What a step that faults met (R200, R203). -/
theorem step_fault (h : step s = .fault f) : s.status = .faulted f ∨ (s.status = .running ∧ (fetch s = .error f ∨
    ∃ w, fetch s = .ok w ∧ (f = .illegalInstruction w ∨ ∃ i, decode w = .ok i ∧ exec i s = .fault f))) := by
  unfold step at h
  split at h
  · next hrun =>
    split at h
    · cases h
    · refine .inr ⟨hrun, ?_⟩
      obtain hfetch | ⟨w, hfetch, hdec⟩ := orRaise_fault h
      · exact .inl hfetch
      · refine .inr ⟨w, hfetch, ?_⟩
        split at hdec
        · next i hi =>
          exact .inr ⟨i, hi, countCompleted_fault hdec⟩
        · cases hdec; exact .inl rfl
  · cases h
  · next g hs => cases h; exact .inl hs

end

/-- Settles O42: the step counts what `exec` answers and passes its fault on. -/
theorem stepRunsTheDecodedInstruction : Obligations.StepRunsTheDecodedInstruction := by
  unfold Obligations.StepRunsTheDecodedInstruction
  intro s w i hrun hpc hf hd
  rw [step_of_running hrun hpc, runInstr_of_decode_ok hf hd]
  exact ⟨fun t h => by rw [h, countCompleted], fun f h => by rw [h, countCompleted]⟩

/-- Settles O43: the fault of the fetch is the fault of the step. -/
theorem stepFetchFaults : Obligations.StepFetchFaults := by
  unfold Obligations.StepFetchFaults
  intro s f hrun hpc hf
  have fault := (step_of_running hrun hpc).trans (runInstr_of_fetch_error hf)
  exact ⟨fault, settledStep_of_fault fault⟩

/-- Settles O44: `END_PC` is looked at before the fetch. -/
theorem runEndsAtEndPc : Obligations.RunEndsAtEndPc := by
  unfold Obligations.RunEndsAtEndPc
  intro s hrun hpc
  simp [step, hrun, hpc]

/-! ### Runs that are over -/

theorem State.withStatus_self {s : State} {st : Status} (h : s.status = st) : s.withStatus st = s := by
  rw [← h, State.withStatus]

theorem run_of_ended {s : State} (h : s.status = .ended) (k : Nat) : Sys2Proof.core.run k s = .next s := by
  induction k with
  | zero => rfl
  | succ k ih => rw [run_succ_next k (step_of_ended h), ih]

theorem settledStep_of_faulted {s : State} {f : Fault} (h : s.status = .faulted f) : settledStep s = s := by
  rw [settledStep_of_fault (step_of_faulted h), State.withStatus_self h]

/-- Settles O45, by induction on the number of steps of an ended run. -/
theorem runsThatAreOverStayOver : Obligations.RunsThatAreOverStayOver := by
  unfold Obligations.RunsThatAreOverStayOver
  exact fun s k => ⟨fun h => run_of_ended h k,
    fun f h => ⟨run_succ_fault k (step_of_faulted h), settledStep_of_faulted h⟩⟩

/-- Settles O46: a fault sets `status` and nothing else, and that status is the fault of every further step. -/
theorem faultsArePrecise : Obligations.FaultsArePrecise := by
  unfold Obligations.FaultsArePrecise
  intro s f h
  rw [settledStep_of_fault h]
  have faulted : (s.withStatus (.faulted f)).status = .faulted f := rfl
  exact ⟨faulted, fun _ => rfl, rfl, fun _ => rfl, rfl, ⟨rfl, rfl, rfl, rfl⟩, step_of_faulted faulted,
    settledStep_of_faulted faulted⟩

/-! ### What a step that answers a next state keeps -/

/-- No step changes the launch parameters (R7, R43). -/
theorem step_sameLaunch {s t : State} (h : step s = .next t) : SameLaunch s t := by
  obtain ⟨-, -, rfl⟩ | ⟨-, -, w, i, u, -, -, hexec, rfl⟩ | ⟨-, rfl⟩ := step_next h
  · exact ⟨rfl, rfl, rfl, rfl⟩
  · obtain ⟨-, -, hlaunch⟩ := (exec_completes hexec).sameRest
    exact hlaunch
  · exact SameLaunch.refl _

/-- A step from a running state away from `END_PC` counts one instruction and goes on running (R234, R237). -/
theorem step_counts {s t : State} (h : step s = .next t) (hrun : s.status = .running) (hpc : s.pc ≠ s.endPc) :
    t.steps = s.steps + 1 ∧ t.status = .running := by
  obtain ⟨-, hend, -⟩ | ⟨-, -, w, i, u, -, -, hexec, rfl⟩ | ⟨hended, -⟩ := step_next h
  · exact absurd hend hpc
  · obtain ⟨hstatus, hsteps, -⟩ := (exec_completes hexec).sameRest
    exact ⟨congrArg (· + 1) hsteps, hstatus.trans hrun⟩
  · cases hrun.symm.trans hended

/-- Every other step that answers a next state leaves the run ended and the count as it was (R236). -/
theorem step_ends {s t : State} (h : step s = .next t) (hn : ¬ (s.status = .running ∧ s.pc ≠ s.endPc)) :
    t.steps = s.steps ∧ t.status = .ended := by
  obtain ⟨-, -, rfl⟩ | ⟨hrun, hpc, -⟩ | ⟨hended, rfl⟩ := step_next h
  · exact ⟨rfl, rfl⟩
  · exact absurd ⟨hrun, hpc⟩ hn
  · exact ⟨rfl, hended⟩

/-- Settles O47: the step counts exactly what it executes. -/
theorem stepsCountCompletedInstructions : Obligations.StepsCountCompletedInstructions := by
  unfold Obligations.StepsCountCompletedInstructions
  exact fun s t h => ⟨fun ⟨hrun, hpc⟩ => step_counts h hrun hpc, fun hn => (step_ends h hn).1⟩

/-- Settles O48: the fetch reads the image, which no step changes. -/
theorem storesNeverReachTheFetch : Obligations.StoresNeverReachTheFetch := by
  unfold Obligations.StoresNeverReachTheFetch
  intro s t h
  obtain ⟨image, hrest⟩ := step_sameLaunch h
  exact ⟨⟨image, hrest⟩, fun a => fetch_congr rfl image⟩

/-- Settles O51: with an aligned `pc` the fault is the instruction's own, and `mayRaise` says of which. -/
theorem invRulesOutMisalignedFetch : Obligations.InvRulesOutMisalignedFetch := by
  unfold Obligations.InvRulesOutMisalignedFetch
  intro s target hinv h
  obtain hfaulted | ⟨hrun, hfetch | ⟨w, hfetch, hill | ⟨i, hdec, hexec⟩⟩⟩ := step_fault h
  · exact .inl hfaulted
  · obtain ⟨hmis, -⟩ | hother := fetch_error hfetch
    · exact absurd hinv.pc_aligned hmis
    · cases hother
  · cases hill
  · obtain ⟨htransfer, hmis⟩ := exec_mayRaise hexec
    exact .inr ⟨hrun, hmis, w, i, hfetch, hdec, htransfer⟩

/-! ### A placed word -/

/-- The word the opcode table numbers decodes as a word. -/
theorem decode_of_decodeTableWord {w : Nat} {i : Instr} (h : decodeTableWord 32 w = some i) :
    decode (BitVec.ofNat 32 (w % 2 ^ 32)) = .ok i := by
  cases hdec : decode (BitVec.ofNat 32 (w % 2 ^ 32)) with
  | ok j =>
    have bytes := decodeBytes_of_ok [] hdec
    rw [List.append_nil] at bytes
    rw [decodeTableWord, bytes] at h
    exact congrArg _ (Option.some.inj h)
  | error e =>
    have bytes := decodeBytes_of_error [] hdec
    rw [List.append_nil] at bytes
    rw [decodeTableWord, bytes] at h
    cases h

section
variable (s : State) (w : Nat)

theorem withFetchWord_pc_ne_endPc : (s.withFetchWord 32 w).pc ≠ (s.withFetchWord 32 w).endPc := by
  show s.pc ≠ if s.endPc = s.pc then s.pc + 4#32 else s.endPc
  split
  · exact fun h => by simp at h
  · next hne => exact Ne.symm hne

/-- The one-word image at `pc` is read at `pc`. -/
theorem fetch_withFetchWord (hal : s.pc.toNat % 4 = 0) :
    fetch (s.withFetchWord 32 w) = .ok (BitVec.ofNat 32 (w % 2 ^ 32)) := by
  have fits : s.pc.toNat + 4 * [BitVec.ofNat 32 (w % 2 ^ 32)].length ≤ 2 ^ 32 := by
    rw [List.length_singleton]; omega
  have inside : (s.withFetchWord 32 w).image.contains s.pc.toNat = true :=
    (Image.contains_iff _ _).2 ⟨le_rfl, Nat.lt_add_of_pos_right four_pos⟩
  obtain ⟨w', hword, hfetch⟩ := fetch_inside (s := s.withFetchWord 32 w) ⟨hal, fits⟩ hal inside
  have index : (s.pc.toNat - s.pc.toNat) / 4 = 0 := by rw [Nat.sub_self, Nat.zero_div]
  have first : [BitVec.ofNat 32 (w % 2 ^ 32)][(s.pc.toNat - s.pc.toNat) / 4]? = some w' := hword
  rw [index] at first
  exact hfetch.trans (congrArg _ (Option.some.inj first).symm)

end

/-- Settles O56: the step of a placed word fetches it, decodes it and runs it. -/
theorem placedWordIsRun : Obligations.PlacedWordIsRun := by
  unfold Obligations.PlacedWordIsRun
  intro s w i hal htable
  refine ⟨?_, fun _ => rfl, fun _ => rfl, rfl⟩
  rw [step_of_running rfl (withFetchWord_pc_ne_endPc s w)]
  exact runInstr_of_decode_ok (fetch_withFetchWord s w hal) (decode_of_decodeTableWord htable)

end Sys2Proof.Machine
end

section
/-! SUPPORT. Proofs of the family 70_reset_and_hazards.md: the invariant, the launch of a run and its first state, and
every state the run reaches (spec rules R7, R22, R43, R230 to R232). -/

namespace Sys2Proof.Machine

/-! ### The invariant -/

/-- The invariant of a state with the launch parameters of a good one is about `M`, slot 0 and `pc`. -/
theorem State.Inv.of_sameLaunch {s t : State} (h : s.Inv) (launch_eq : SameLaunch s t) (mem_wf : t.mem.wf)
    (mem_valid : ∀ c ∈ t.mem, s.inMemValid c.1 = true) (x_zero : t.x[0] = s.x[0]) (pc_aligned : t.pc.toNat % 4 = 0) :
    t.Inv where
  mem_wf := mem_wf
  mem_valid c hc := (launch_eq.inMemValid c.1).trans (mem_valid c hc)
  x_zero := x_zero.trans h.x_zero
  pc_aligned := pc_aligned
  endPc_aligned := by
    obtain ⟨-, hend, -⟩ := launch_eq
    rw [hend]; exact h.endPc_aligned
  image_wf := by
    obtain ⟨himage, -⟩ := launch_eq
    rw [himage]; exact h.image_wf

theorem PcAfter.aligned {i : Instr} {s : State} {target : Word} (h : PcAfter i s target) (hpc : s.pc.toNat % 4 = 0) :
    target.toNat % 4 = 0 := by
  obtain rfl | ⟨-, hal⟩ := h
  · exact aligned4_add_four hpc
  · exact hal

/-- The three ways to complete keep the invariant. -/
theorem Completes.inv {i : Instr} {s t : State} (h : Completes i s t) (hs : s.Inv) : t.Inv := by
  have launch_eq := h.sameRest.2.2
  have aligned := h.pcAfter.aligned hs.pc_aligned
  cases h with
  | regAndPc rd v target hd hpc =>
    refine hs.of_sameLaunch launch_eq ?_ ?_ (State.writeReg_slot_zero s rd v) aligned
    · rw [State.withPc_mem, State.writeReg_mem]; exact hs.mem_wf
    · rw [State.withPc_mem, State.writeReg_mem]; exact hs.mem_valid
  | pcOnly target hd hpc => exact hs.of_sameLaunch launch_eq hs.mem_wf hs.mem_valid rfl aligned
  | store w rs1 offset v m hd ha hm =>
    exact hs.of_sameLaunch launch_eq (memWrite_wf hs.mem_wf hm)
      (fun c hc => (memWrite_mem hm hc).elim id (hs.mem_valid c)) rfl aligned

/-- The invariant does not speak of `status` or the step count. -/
theorem State.Inv.withStatus {s : State} (h : s.Inv) (st : Status) : (s.withStatus st).Inv :=
  h.of_sameLaunch ⟨rfl, rfl, rfl, rfl⟩ h.mem_wf h.mem_valid rfl h.pc_aligned

theorem State.Inv.countStep {s : State} (h : s.Inv) : s.countStep.Inv :=
  h.of_sameLaunch ⟨rfl, rfl, rfl, rfl⟩ h.mem_wf h.mem_valid rfl h.pc_aligned

theorem step_keeps_inv {s t : State} (hs : s.Inv) (h : step s = .next t) : t.Inv := by
  obtain ⟨-, -, rfl⟩ | ⟨-, -, w, i, u, -, -, hexec, rfl⟩ | ⟨-, rfl⟩ := step_next h
  · exact hs.withStatus .ended
  · exact ((exec_completes hexec).inv hs).countStep
  · exact hs

/-- Settles O50, by what a step that answers a next state did. -/
theorem stepKeepsInv : Obligations.StepKeepsInv := by
  unfold Obligations.StepKeepsInv
  exact fun _ _ => step_keeps_inv

/-! ### The state after reset -/

/-- Settles O49: no byte, an empty image, and `RESET_PC` a multiple of 4. -/
theorem invAtReset : Obligations.InvAtReset where
  mem_wf := ⟨.nil, fun _ h => by cases h⟩
  mem_valid _ h := by cases h
  x_zero := rfl
  pc_aligned := rfl
  endPc_aligned := rfl
  image_wf := ⟨rfl, by decide⟩

/-- An image of no word holds no address. -/
theorem Image.contains_nil (base : Word) (a : Nat) : Image.contains ⟨base, []⟩ a = false :=
  Bool.eq_false_iff.2 fun h => by
    obtain ⟨hle, hlt⟩ := (Image.contains_iff _ _).1 h
    exact Nat.not_lt.2 hle hlt

/-- Settles O55: the fields of the reset state, with every 32-bit address valid since the image is empty. -/
theorem resetState : Obligations.ResetState := by
  unfold Obligations.ResetState
  refine ⟨rfl, rfl, fun _ => rfl, fun a ha => ?_, rfl, rfl, rfl, rfl⟩
  have valid : allAddresses.any (fun r => r.contains a) = true := by
    simpa [allAddresses, Region.contains] using ha
  show (allAddresses.any (fun r => r.contains a) && !Image.contains ⟨Config.resetPc, []⟩ a) = true
  rw [valid, Image.contains_nil]; rfl

/-! ### The launch -/

/-- `MEM_VALID` of a launched state is that of the launch, less its image (R38). -/
theorem launched_inMemValid_iff (p : LaunchParams) (a : Nat) : (launched p).inMemValid a = true ↔
    (∃ r ∈ p.memValid, r.contains a = true) ∧ p.image.contains a = false := by
  simp [State.inMemValid, launched]

/-- A launch is a run, whose first state is `launched`, exactly when none of the four refusals applies. -/
theorem launch_ok_iff (p : LaunchParams) (s : State) : launch p = .ok s ↔
    (p.resetPc.toNat % 4 = 0 ∧ p.endPc.toNat % 4 = 0 ∧ p.image.wf ∧
      ∀ c ∈ p.memInit, c.1 < 2 ^ 32 ∧ (launched p).inMemValid c.1 = true) ∧ s = launched p := by
  have meminit : p.memInit.all (fun c => decide (c.1 < 2 ^ 32) && (launched p).inMemValid c.1) = true ↔
      ∀ c ∈ p.memInit, c.1 < 2 ^ 32 ∧ (launched p).inMemValid c.1 = true := by
    simp only [List.all_eq_true, Bool.and_eq_true, decide_eq_true_eq]
  rw [← aligned4_iff p.resetPc, ← aligned4_iff p.endPc, ← meminit, launch]
  constructor
  · intro h
    split_ifs at h with hreset hend himage hmem
    cases h
    exact ⟨⟨hreset, hend, himage, hmem⟩, rfl⟩
  · rintro ⟨⟨hreset, hend, himage, hmem⟩, rfl⟩
    rw [if_neg (not_not.2 hreset), if_neg (not_not.2 hend), if_neg (not_not.2 himage), if_neg (not_not.2 hmem)]

/-- Settles O52: the four refusals, the first of them for `RESET_PC`. -/
theorem launchAcceptsOrRefuses : Obligations.LaunchAcceptsOrRefuses := by
  unfold Obligations.LaunchAcceptsOrRefuses
  refine fun p => ⟨?_, fun hreset => if_pos (mt (aligned4_iff _).1 hreset)⟩
  simp only [launch_ok_iff, launched_inMemValid_iff, exists_and_left, exists_eq, and_true]

/-! ### The bytes of `MEM_INIT` -/

/-- An address the entries do not name keeps what it held. -/
theorem Memory.read_foldl_write_other (cells : List Host.Cell) (m : Memory) {a : Nat} (h : ∀ c ∈ cells, c.1 ≠ a) :
    (cells.foldl (fun m c => Memory.write m c.1 c.2) m).read a = m.read a := by
  induction cells generalizing m with
  | nil => rfl
  | cons c cs ih =>
    obtain ⟨hc, hcs⟩ := List.forall_mem_cons.1 h
    rw [List.foldl_cons, ih _ hcs, Memory.read_write, if_neg hc.symm]

/-- An address to which every entry that names it gives one value holds that value, if some entry names it or it held
the value before. -/
theorem Memory.read_foldl_write_unique (cells : List Host.Cell) (m : Memory) {a : Nat} {v : Byte}
    (unique : ∀ c ∈ cells, c.1 = a → c.2 = v) (given : (∃ c ∈ cells, c.1 = a) ∨ m.read a = some v) :
    (cells.foldl (fun m c => Memory.write m c.1 c.2) m).read a = some v := by
  induction cells generalizing m with
  | nil => simpa using given
  | cons c cs ih =>
    obtain ⟨hc, hcs⟩ := List.forall_mem_cons.1 unique
    refine ih _ hcs ?_
    rw [Memory.read_write]
    by_cases ha : a = c.1
    · exact .inr (by rw [if_pos ha, hc ha.symm])
    · rw [if_neg ha]
      refine given.imp_left fun ⟨d, hd, hda⟩ => ⟨d, ?_, hda⟩
      exact (List.mem_cons.1 hd).resolve_left fun heq => ha (heq ▸ hda.symm)

theorem launched_inv {p : LaunchParams} {s : State} (h : launch p = .ok s) : s.Inv := by
  obtain ⟨⟨hreset, hend, himage, hmem⟩, rfl⟩ := (launch_ok_iff p s).1 h
  have listed {c : Host.Cell} (hc : c ∈ memoryOf p.memInit) : c ∈ p.memInit :=
    (Memory.mem_foldl_write p.memInit [] hc).resolve_right (by simp)
  exact {
    mem_wf := Memory.wf_foldl_write p.memInit [] ⟨.nil, by simp⟩ fun c hc => (hmem c hc).1
    mem_valid := fun c hc => (hmem c (listed hc)).2
    x_zero := by simp [launched]
    pc_aligned := hreset
    endPc_aligned := hend
    image_wf := himage }

/-- Every register but `x[0]` is as the launch gives it (R231, R23). -/
theorem launched_readReg (p : LaunchParams) {r : RegIdx} (hr : r ≠ 0) : (launched p).readReg r = p.regs[r.val] := by
  have hval : 0 ≠ r.val := fun h => hr (Fin.ext h.symm)
  rw [State.readReg, if_neg hr]
  exact Vector.getElem_set_ne (by decide) r.isLt hval

/-- Settles O53, field by field of `launched`. -/
theorem launchedState : Obligations.LaunchedState := by
  unfold Obligations.LaunchedState
  intro p s h
  have inv := launched_inv h
  obtain ⟨-, rfl⟩ := (launch_ok_iff p s).1 h
  exact ⟨rfl, State.readReg_zero _, fun r => launched_readReg p, rfl, rfl,
    fun c hc unique => Memory.read_foldl_write_unique p.memInit [] unique (.inl ⟨c, hc, rfl⟩),
    fun a => Memory.read_foldl_write_other p.memInit [], rfl, rfl, rfl, rfl, inv⟩

/-! ### Every state of a launched run -/

/-- A run of `k + 1` steps that answers a next state began with a step that did. -/
theorem run_succ_inv {s t : State} {k : Nat} (h : Sys2Proof.core.run (k + 1) s = .next t) :
    ∃ u, step s = .next u ∧ Sys2Proof.core.run k u = .next t := by
  cases hstep : step s with
  | next u => exact ⟨u, rfl, (run_succ_next k hstep).symm.trans h⟩
  | fault f => cases (run_succ_fault k hstep).symm.trans h
  | refused r => exact absurd hstep (step_answers s r)

/-- What a run has kept after `k` steps from `s`. -/
structure RunKeeps (k : Nat) (s t : State) : Prop where
  inv : t.Inv
  launch_eq : SameLaunch s t
  not_faulted : t.status = .running ∨ t.status = .ended
  counted : t.steps ≤ s.steps + k

theorem step_runKeeps {s t : State} (hs : s.Inv) (h : step s = .next t) : RunKeeps 1 s t where
  inv := step_keeps_inv hs h
  launch_eq := step_sameLaunch h
  not_faulted := by
    by_cases hn : s.status = .running ∧ s.pc ≠ s.endPc
    · exact .inl (step_counts h hn.1 hn.2).2
    · exact .inr (step_ends h hn).2
  counted := by
    by_cases hn : s.status = .running ∧ s.pc ≠ s.endPc
    · exact (step_counts h hn.1 hn.2).1.le
    · exact (step_ends h hn).1.trans_le (Nat.le_add_right _ _)

/-- Induction on the number of steps: each one keeps the invariant and the launch parameters and counts at most one. -/
theorem run_runKeeps {k : Nat} {s t : State} (hs : s.Inv) (hstatus : s.status = .running ∨ s.status = .ended)
    (h : Sys2Proof.core.run k s = .next t) : RunKeeps k s t := by
  induction k generalizing s with
  | zero => cases h; exact ⟨hs, SameLaunch.refl _, hstatus, le_rfl⟩
  | succ k ih =>
    obtain ⟨u, hstep, hrun⟩ := run_succ_inv h
    have first := step_runKeeps hs hstep
    have rest := ih first.inv first.not_faulted hrun
    have counted : t.steps ≤ s.steps + 1 + k := rest.counted.trans (Nat.add_le_add_right first.counted k)
    exact ⟨rest.inv, first.launch_eq.trans rest.launch_eq, rest.not_faulted, by omega⟩

/-- Settles O54: the first state is good, and every run from it keeps that. -/
theorem launchedRunsStayGood : Obligations.LaunchedRunsStayGood := by
  unfold Obligations.LaunchedRunsStayGood
  intro p s t k hlaunch hrun
  obtain ⟨-, -, -, hstatus, hsteps, -⟩ := launchedState p s hlaunch
  have kept := run_runKeeps (launched_inv hlaunch) (.inl hstatus) hrun
  exact ⟨kept.inv, kept.launch_eq, kept.not_faulted, by simpa [hsteps] using kept.counted⟩

end Sys2Proof.Machine
end

section
/-! SUPPORT. Proofs of the families 40_load_constant.md, 41_arithmetic.md, 42_boolean_logic.md and 44_compare.md: what
the instructions that end in one register write put there (spec rules R8, R67, R110 to R122, R130 to R135, R150 to R153). -/

namespace Sys2Proof.Machine

/-! ### Constants, sums and differences -/

/-- The upper immediate is its field times 2^12 (R67). -/
theorem upperImm_eq (imm20 : BitVec 20) : upperImm imm20 = BitVec.ofNat 32 (imm20.toNat * 2 ^ 12) := by
  have high : upperImm imm20 = imm20.setWidth 32 <<< 12 := by
    unfold upperImm
    ext k hk
    grind
  have fits := imm20.isLt
  apply BitVec.eq_of_toNat_eq
  rw [high, BitVec.toNat_shiftLeft, BitVec.toNat_setWidth, Nat.shiftLeft_eq, BitVec.toNat_ofNat,
    Nat.mod_eq_of_lt (by omega : imm20.toNat < 2 ^ 32)]

section
variable (a b : Word)

theorem add_eq : a + b = BitVec.ofNat 32 (u32 a + u32 b) := by
  rw [BitVec.ofNat_add, BitVec.ofNat_toNat, BitVec.ofNat_toNat, BitVec.setWidth_eq, BitVec.setWidth_eq]

theorem sub_eq : a - b = to32 (s32 a - s32 b) := by
  rw [sub_eq_add_neg, sub_eq_add_neg, to32, BitVec.ofInt_add, BitVec.ofInt_neg, BitVec.ofInt_toInt, BitVec.ofInt_toInt]

theorem mul_eq_unsigned : a * b = BitVec.ofNat 32 (u32 a * u32 b) := by
  rw [BitVec.ofNat_mul, BitVec.ofNat_toNat, BitVec.ofNat_toNat, BitVec.setWidth_eq, BitVec.setWidth_eq]

theorem mul_eq_signed : a * b = to32 (s32 a * s32 b) := by
  rw [to32, BitVec.ofInt_mul, BitVec.ofInt_toInt, BitVec.ofInt_toInt]

end

/-- Settles O15, by the value of the upper immediate. -/
theorem loadConstantResults : Obligations.LoadConstantResults := by
  unfold Obligations.LoadConstantResults
  refine fun s rd imm20 => ⟨completes_of_finishReg rfl (upperImm_eq imm20), completes_of_finishReg rfl ?auipc⟩
  rw [upperImm_eq, BitVec.ofNat_add, BitVec.ofNat_toNat, BitVec.setWidth_eq]

/-- The signed reading of the sum with a sign-extended immediate. -/
theorem add_sext12_eq (a : Word) (imm : BitVec 12) : a + sext12 imm = to32 (s32 a + imm.toInt) := by
  rw [to32, BitVec.ofInt_add, BitVec.ofInt_toInt, sext12, BitVec.signExtend]

/-- Settles O16: addition and subtraction of patterns are those of the numbers modulo 2^32. -/
theorem addSubResults : Obligations.AddSubResults := by
  unfold Obligations.AddSubResults
  exact fun s rd rs1 rs2 imm => ⟨completes_of_finishReg rfl (add_eq _ _),
    completes_of_finishReg rfl (add_sext12_eq _ imm), completes_of_finishReg rfl (sub_eq _ _)⟩

/-! ### Products (R113 to R116) -/

/-- Bits 63 to 32 of a product are its quotient by 2^32, rounded down, modulo 2^32. -/
theorem upperHalf_eq (p : Int) : upperHalf p = to32 (p / 2 ^ 32) := by
  apply BitVec.eq_of_toNat_eq
  rw [upperHalf, BitVec.extractLsb'_toNat, BitVec.toNat_ofInt, Nat.shiftRight_eq_div_pow, to32, BitVec.toNat_ofInt]
  omega

/-- Settles O17: the low half is the product of patterns, the high half `upperHalf` of the exact product. -/
theorem multiplyResults : Obligations.MultiplyResults := by
  unfold Obligations.MultiplyResults
  intro s rd rs1 rs2
  refine ⟨⟨_, rfl, ?unsigned, ?signed⟩, completes_of_finishReg rfl (upperHalf_eq _),
    completes_of_finishReg rfl (upperHalf_eq _), completes_of_finishReg rfl ?mulhu⟩
  case unsigned => exact mul_eq_unsigned (s.readReg rs1) (s.readReg rs2) ▸ writesReg_write_advance s rd _
  case signed => exact mul_eq_signed (s.readReg rs1) (s.readReg rs2) ▸ writesReg_write_advance s rd _
  case mulhu => rw [upperHalf_eq, ← BitVec.ofInt_natCast]; norm_cast

/-! ### Quotients and remainders (R117 to R122) -/

section
variable {p : DivCorner} {op : DivOp} {a b : Word}

theorem divResult_exact (h : divIsCorner op a b = false) : divResult p op a b = divExact op a b :=
  if_neg (Bool.eq_false_iff.1 h)

theorem divIsCorner_eq_false (op : DivOp) (hb : b ≠ 0#32) (hover : ¬ (a = 0x80000000#32 ∧ b = 0xFFFFFFFF#32)) :
    divIsCorner op a b = false := by
  cases op
  case divS | remS => simpa [divIsCorner, hb] using hover
  case divU | remU => simp [divIsCorner, hb]

end

/-- The remainder of a division rounded toward zero is smaller than the divisor and has the sign of the dividend. -/
theorem tmod_spec (a : Int) {b : Int} (hb : b ≠ 0) :
    |a.tmod b| < |b| ∧ (a.tmod b = 0 ∨ (0 < a.tmod b ↔ 0 < a)) := by
  refine ⟨?_, ?_⟩
  · rw [Int.abs_eq_natAbs, Int.abs_eq_natAbs, Int.natAbs_tmod]
    exact_mod_cast Nat.mod_lt _ (Int.natAbs_pos.2 hb)
  · by_cases h : b ∣ a
    · exact .inl (Int.tmod_eq_zero_of_dvd h)
    · have sign := Int.sign_tmod a b
      rw [if_neg h] at sign
      exact .inr (by rw [← Int.sign_eq_one_iff_pos, sign, Int.sign_eq_one_iff_pos])

/-- The range of `s32` (R8). -/
theorem s32_range (a : Word) : -2 ^ 31 ≤ s32 a ∧ s32 a < 2 ^ 31 := ⟨BitVec.le_toInt a, BitVec.toInt_lt⟩

theorem s32_to32 {n : Int} (h : -2 ^ 31 ≤ n ∧ n < 2 ^ 31) : s32 (to32 n) = n :=
  BitVec.toInt_ofInt_eq_self (by decide) h.1 h.2

/-- The quotient rounded toward zero of two 32-bit numbers is one too, but for -2^31 by -1 (R122): a divisor of 2 or
more in magnitude halves the dividend, and 1 and -1 leave its magnitude. -/
theorem tdiv_range {a b : Int} (ha : -2 ^ 31 ≤ a ∧ a < 2 ^ 31) (hover : ¬ (a = -2 ^ 31 ∧ b = -1)) :
    -2 ^ 31 ≤ a.tdiv b ∧ a.tdiv b < 2 ^ 31 := by
  by_cases hone : b = 1
  · rwa [hone, Int.tdiv_one]
  by_cases hneg : b = -1
  · rw [hneg, Int.tdiv_neg, Int.tdiv_one]; omega
  have magnitude : (a.tdiv b).natAbs = a.natAbs / b.natAbs := Int.natAbs_tdiv a b
  by_cases hzero : b = 0
  · rw [hzero, Int.tdiv_zero]; decide
  have half : a.natAbs / b.natAbs ≤ a.natAbs / 2 := Nat.div_le_div_left (by omega) (by decide)
  omega

/-- The remainder of 32-bit numbers is one too: it is smaller than the divisor (R122). -/
theorem tmod_range (a : Int) {b : Int} (hb : -2 ^ 31 ≤ b ∧ b < 2 ^ 31) (hzero : b ≠ 0) :
    -2 ^ 31 ≤ a.tmod b ∧ a.tmod b < 2 ^ 31 := by
  have smaller : (a.tmod b).natAbs < b.natAbs := Int.natAbs_tmod a b ▸ Nat.mod_lt _ (Int.natAbs_pos.2 hzero)
  omega

theorem s32_ne_zero {b : Word} (h : b ≠ 0#32) : s32 b ≠ 0 := fun h0 => h (BitVec.eq_of_toInt_eq h0)

/-- Settles O18: away from the corners the results are `tdiv` and `tmod`, neither of which is reduced. -/
theorem signedDivisionResults : Obligations.SignedDivisionResults := by
  unfold Obligations.SignedDivisionResults
  intro s rd rs1 rs2 hb hover
  have exact_result (op : DivOp) : divResult s.divCorner op (s.readReg rs1) (s.readReg rs2) =
      divExact op (s.readReg rs1) (s.readReg rs2) := divResult_exact (divIsCorner_eq_false op hb hover)
  have not_over : ¬ (s32 (s.readReg rs1) = -2 ^ 31 ∧ s32 (s.readReg rs2) = -1) := fun ⟨h1, h2⟩ =>
    hover ⟨BitVec.eq_of_toInt_eq h1, BitVec.eq_of_toInt_eq h2⟩
  have nonzero := s32_ne_zero hb
  obtain ⟨smaller, sign⟩ := tmod_spec (s32 (s.readReg rs1)) nonzero
  refine ⟨_, _, (Int.tdiv_mul_add_tmod _ _).symm, smaller, sign, s32_to32 (tdiv_range (s32_range _) not_over),
    s32_to32 (tmod_range _ (s32_range _) nonzero), ?div, ?rem⟩
  case div => exact completes_of_finishReg rfl (exact_result .divS)
  case rem => exact completes_of_finishReg rfl ((exact_result .remS).trans (by rw [Int.tmod_def, divExact]))

/-- Settles O19: the quotient and remainder of the natural numbers. -/
theorem unsignedDivisionResults : Obligations.UnsignedDivisionResults := by
  unfold Obligations.UnsignedDivisionResults
  intro s rd rs1 rs2 hb
  have no_corner : divIsCorner .divU (s.readReg rs1) (s.readReg rs2) = false := by simp [divIsCorner, hb]
  have positive : 0 < u32 (s.readReg rs2) := Nat.pos_of_ne_zero fun h0 => hb (BitVec.eq_of_toNat_eq h0)
  exact ⟨_, _, (Nat.div_add_mod' _ _).symm, Nat.mod_lt _ positive,
    completes_of_finishReg rfl (divResult_exact no_corner),
    completes_of_finishReg rfl (divResult_exact (op := .remU) no_corner)⟩

/-- Settles O20, by the table of R121 at a zero divisor and at the overflow. -/
theorem divisionCornersDefault : Obligations.DivisionCornersDefault := by
  unfold Obligations.DivisionCornersDefault
  refine fun s rd rs1 rs2 hdefault => ⟨fun hb => ?zero, fun ha hb => ?overflow⟩
  case zero =>
    have corner (op : DivOp) : divResult s.divCorner op (s.readReg rs1) (s.readReg rs2) =
        divCornerTable op (s.readReg rs1) 0#32 := by rw [hdefault, hb]; rfl
    exact ⟨completes_of_finishReg rfl (corner .divS), completes_of_finishReg rfl (corner .divU),
      completes_of_finishReg rfl (corner .remS), completes_of_finishReg rfl (corner .remU)⟩
  case overflow =>
    exact ⟨completes_of_finishReg rfl (by rw [hdefault, ha, hb]; rfl),
      completes_of_finishReg rfl (by rw [hdefault, ha, hb]; rfl)⟩

/-- Settles O21: each of the four is one register write, whatever its value. -/
theorem divisionNeverFaults : Obligations.DivisionNeverFaults := by
  unfold Obligations.DivisionNeverFaults
  intro s rd rs1 rs2 i hi
  have one_write : ∃ v, exec i s = finishReg rd v s := by
    simp only [List.mem_cons, List.not_mem_nil, or_false] at hi
    rcases hi with rfl | rfl | rfl | rfl <;> exact ⟨_, rfl⟩
  obtain ⟨v, hv⟩ := one_write
  exact ⟨_, v, hv, writesReg_write_advance s rd v⟩

/-! ### Bits (R130 to R135) -/

/-- A sign-extended immediate repeats its bit 11 (R64). -/
theorem sext12_bit (imm : BitVec 12) {k : Nat} (hk : k < 32) : (sext12 imm).getLsbD k = imm.getLsbD (min k 11) := by
  rw [sext12, signExtend_bit _ hk, BitVec.msb_eq_getLsbD_last]
  split
  · rw [Nat.min_eq_left (by omega)]
  · rw [Nat.min_eq_right (by omega)]

/-- Settles O22: the bits of the three operations, with the immediate's bits by `sext12_bit`. -/
theorem booleanResults : Obligations.BooleanResults := by
  unfold Obligations.BooleanResults
  intro s rd rs1 rs2 imm
  have writes (v : Word) := writesReg_write_advance s rd v
  refine ⟨⟨_, _, rfl, writes _, fun k _ => ?xor⟩, ⟨_, _, rfl, writes _, fun k _ => ?or⟩,
    ⟨_, _, rfl, writes _, fun k _ => ?and⟩, ⟨_, _, rfl, writes _, fun k hk => ?xori⟩,
    ⟨_, _, rfl, writes _, fun k hk => ?ori⟩, ⟨_, _, rfl, writes _, fun k hk => ?andi⟩⟩
  case xor => exact BitVec.getLsbD_xor
  case or => exact BitVec.getLsbD_or
  case and => exact BitVec.getLsbD_and
  case xori => rw [BitVec.getLsbD_xor, sext12_bit imm hk]
  case ori => rw [BitVec.getLsbD_or, sext12_bit imm hk]
  case andi => rw [BitVec.getLsbD_and, sext12_bit imm hk]

/-! ### Comparisons (R150 to R153) -/

/-- A comparison as a value (R8). -/
theorem boolWord_decide (p : Prop) [Decidable p] : boolWord (decide p) = if p then 1#32 else 0#32 := by
  simp [boolWord]

theorem s32_sext12 (imm : BitVec 12) : s32 (sext12 imm) = imm.toInt := BitVec.toInt_signExtend_of_le (by decide)

/-- The unsigned reading of a sign-extended immediate (R152). -/
theorem u32_sext12 (imm : BitVec 12) :
    u32 (sext12 imm) = if imm.toNat < 2048 then imm.toNat else imm.toNat + 2 ^ 32 - 2 ^ 12 := by
  have fits := imm.isLt
  rw [u32, sext12, BitVec.toNat_signExtend, BitVec.toNat_setWidth, BitVec.msb_eq_decide]
  simp only [decide_eq_true_eq]
  split_ifs <;> omega

/-- Settles O24: each writes its comparison as 1 or 0. -/
theorem compareResults : Obligations.CompareResults := by
  unfold Obligations.CompareResults
  intro s rd rs1 rs2 imm
  refine ⟨completes_of_finishReg rfl (boolWord_decide _), completes_of_finishReg rfl ?slti,
    completes_of_finishReg rfl ?sltiu, completes_of_finishReg rfl (boolWord_decide _)⟩
  case slti => rw [← s32_sext12]; exact boolWord_decide _
  case sltiu => rw [← u32_sext12]; exact boolWord_decide _

end Sys2Proof.Machine
end

section
/-! SUPPORT. Proofs of the families 45_jump.md and 46_branch.md: the jumps and branches that complete (spec rules R160,
R161, R170 to R177). -/

namespace Sys2Proof.Machine

/-! ### Jumps -/

/-- A jump to an aligned target completes: link, target, and nothing else (R160, R161). -/
theorem jumpLink_completes {i : Instr} {s : State} {rd : RegIdx} {target : Word}
    (jumps : exec i s = jumpLink rd target s) (h : target.toNat % 4 = 0) :
    ∃ t, exec i s = .next t ∧ RegsAfter s t rd (BitVec.ofNat 32 (u32 s.pc + 4)) ∧ t.pc = target ∧ SameMem s t ∧
      SameRest s t := by
  have next : exec i s = .next ((s.writeReg rd (s.pc + 4#32)).withPc target) :=
    jumps.trans (if_pos ((aligned4_iff target).2 h))
  rw [← add_four_eq]
  exact ⟨_, next, fun r => State.writeReg_readReg s rd r _, rfl, fun a => by simp, (exec_completes next).sameRest⟩

/-- Settles O25: the target is `pc` plus the offset modulo 2^32. -/
theorem jalCompletes : Obligations.JalCompletes := by
  unfold Obligations.JalCompletes
  intro s rd offset hal
  rw [← add_signExtend_eq] at hal ⊢
  exact jumpLink_completes rfl hal

/-- JALR's target keeps every bit of the sum but bit 0 (R161). -/
theorem jalrTarget_bit (s : State) (rs1 : RegIdx) (offset : BitVec 12) {k : Nat} (hk : k < 32) :
    (jalrTarget s rs1 offset).getLsbD k =
      if k = 0 then false else (to32 ((u32 (s.readReg rs1) : Int) + offset.toInt)).getLsbD k := by
  have mask : (0xFFFFFFFE#32).getLsbD k = decide (k ≠ 0) := by decide +revert
  rw [jalrTarget, BitVec.getLsbD_and, mask, effAddr, sext12, add_signExtend_eq]
  by_cases h0 : k = 0 <;> simp [h0]

/-- Settles O26: a word with the bits of JALR's target is that target. -/
theorem jalrCompletes : Obligations.JalrCompletes := by
  unfold Obligations.JalrCompletes
  intro s rd rs1 offset target hbits hal
  obtain rfl : jalrTarget s rs1 offset = target :=
    BitVec.eq_of_getLsbD_eq fun k hk => (jalrTarget_bit s rs1 offset hk).trans (hbits k hk).symm
  exact jumpLink_completes rfl hal

/-! ### Branches -/

theorem branchTarget_eq (s : State) (offset : BitVec 13) :
    branchTarget s offset = to32 ((u32 s.pc : Int) + offset.toInt) := add_signExtend_eq s.pc offset

theorem onlyPc_withPc (s : State) (target : Word) : OnlyPc s (s.withPc target) target :=
  ⟨rfl, fun _ => rfl, fun _ => rfl, rfl, rfl, rfl, rfl, rfl, rfl⟩

namespace BranchKind

variable (b : BranchKind) {rs1 rs2 : RegIdx} {offset : BitVec 13} {s : State}

/-- A branch whose condition holds goes to its target, if that is aligned (R177). -/
theorem exec_taken (hc : b.cond (s.readReg rs1) (s.readReg rs2)) (hal : (branchTarget s offset).toNat % 4 = 0) :
    exec (b.instr rs1 rs2 offset) s = .next (s.withPc (branchTarget s offset)) := by
  obtain ⟨c, hexec, taken_iff⟩ := b.exec_eq_branchIf rs1 rs2 offset s
  rw [hexec, taken_iff.2 hc, branchIf, if_pos rfl, transfer, if_pos ((aligned4_iff _).2 hal)]

/-- A branch whose condition fails goes on, whatever its target (R176, R177). -/
theorem exec_untaken (hc : ¬ b.cond (s.readReg rs1) (s.readReg rs2)) :
    exec (b.instr rs1 rs2 offset) s = .next s.advance := by
  obtain ⟨c, hexec, taken_iff⟩ := b.exec_eq_branchIf rs1 rs2 offset s
  rw [hexec, branchIf, if_neg (mt taken_iff.1 hc)]

end BranchKind

/-- Settles O28: taken to the target, or on to `pc + 4`. -/
theorem branchesComplete : Obligations.BranchesComplete := by
  unfold Obligations.BranchesComplete
  refine fun s b rs1 rs2 offset => ⟨fun hc hal => ?taken, fun hc => ?untaken⟩
  case taken =>
    rw [← branchTarget_eq] at hal ⊢
    exact ⟨_, b.exec_taken hc hal, onlyPc_withPc s _⟩
  case untaken => exact ⟨_, b.exec_untaken hc, add_four_eq s.pc ▸ onlyPc_withPc s _⟩

/-- Of two branches one of whose conditions is the negation of the other's, one is taken and the other goes on. -/
theorem opposite_branches {b b' : BranchKind} (opposite : ∀ x y, b'.cond x y ↔ ¬ b.cond x y) {s : State}
    {offset : BitVec 13} (rs1 rs2 : RegIdx) (hal : (branchTarget s offset).toNat % 4 = 0) :
    ∃ t u, ((exec (b.instr rs1 rs2 offset) s = .next t ∧ exec (b'.instr rs1 rs2 offset) s = .next u) ∨
        (exec (b'.instr rs1 rs2 offset) s = .next t ∧ exec (b.instr rs1 rs2 offset) s = .next u)) ∧
      t.pc = branchTarget s offset ∧ u.pc = s.pc + 4#32 := by
  refine ⟨s.withPc (branchTarget s offset), s.advance, ?_, rfl, rfl⟩
  by_cases hc : b.cond (s.readReg rs1) (s.readReg rs2)
  · exact .inl ⟨b.exec_taken hc hal, b'.exec_untaken fun hc' => (opposite _ _).1 hc' hc⟩
  · exact .inr ⟨b'.exec_taken ((opposite _ _).2 hc) hal, b.exec_untaken hc⟩

/-- Settles O30: the conditions of each pair are opposite. -/
theorem oppositeBranches : Obligations.OppositeBranches := by
  unfold Obligations.OppositeBranches
  intro s rs1 rs2 offset p hp hal
  simp only [List.mem_cons, List.not_mem_nil, or_false] at hp
  obtain rfl | rfl | rfl := hp
  · exact opposite_branches (fun x y => Iff.rfl) rs1 rs2 hal
  · exact opposite_branches (fun x y => not_lt.symm) rs1 rs2 hal
  · exact opposite_branches (fun x y => not_lt.symm) rs1 rs2 hal

end Sys2Proof.Machine
end
